-- ==== Sys2Proof/Word.lean ====
section
/-!
DEFINITION. The plain types of the CORE: 32-bit words, bytes, 64-bit addresses and lengths, window offsets
(00_scope.md R8, R9, R10; 20_memory.md R50; 10_state.md R25). Their arithmetic is `BitVec`'s own, which wraps
(R11 `+32`). Everything with a choice in it (rotations, byte orders) stands in Machine/.
-/
namespace Sys2Proof

/-- `u32`: a register value, a hash word, a schedule word (00_scope.md R8, R10). -/
abbrev Word := BitVec 32

/-- One byte of a byte sequence or of system memory (00_scope.md R12, 20_memory.md R50). -/
abbrev Byte := BitVec 8

/-- `u64`: a system-memory address (`ADDR_W` = 64, 00_scope.md R9, 20_memory.md R50). -/
abbrev Addr := BitVec 64

/-- `u64`: a length, an output length or the bit counter (10_state.md R20, R25). -/
abbrev DWord := BitVec 64

/-- A byte offset inside the 4096-byte register window (10_state.md R25). -/
abbrev Offset := BitVec 12

end Sys2Proof
end

