-- ==== Sys2Proof/Config.lean ====
section
/-!
DEFINITION. The free values: what the spec says holds "any value" (93_implementation_defined.md U1, U4, U5). Each is an
opaque constant without a body, so no proof can see a value of it; it is applied to the plain counter
`State.draws`, so that each draw is a fresh one. The platform parameter `MAPPED` is not here: it is the plain
datum `State.map`, over which every statement quantifies (log entry 1).
-/
namespace Sys2Proof

/-- What a register read of an unspecified value returns while BUSY = 1 (10_state.md R32, U1): one fresh word
per read, indexed by the draw counter. DESIGN CHOICE (log entry 10), safe. -/
opaque Config.freeWord : Nat → Word

/-- What a host read of a byte of the running command's output region returns, and what a host write to such a
byte leaves there (20_memory.md R65 (c), U4). DESIGN CHOICE (log entry 12), safe. -/
opaque Config.freeByte : Nat → Byte

/-- What the engine reads from a byte of an input region that the host wrote while the command ran (20_memory.md
R65 (c), U4): indexed by the draw counter, by which operand is being read (0 source, 1 auxiliary) and by the
address. DESIGN CHOICE (log entry 11), safe. -/
opaque Config.raceByte : Nat → Nat → Addr → Byte

/-- What a byte of the output region of a command abandoned by reset holds (70_reset_and_hazards.md R241, U5):
indexed by the draw counter and the address. DESIGN CHOICE (log entry 13), safe. -/
opaque Config.abandonedByte : Nat → Addr → Byte

end Sys2Proof
end

