-- ==== Sys2Proof/Syntax.lean ====
section
/-!
DEFINITION. The commands: one constructor per row of spec/opcode_table.json (30_encoding.md R72), and the two
fields of a raw command word (R70). No command has an operand field (R74): every operand comes from the
parameter registers.
-/
namespace Sys2Proof

/-- The nine commands of the opcode map (30_encoding.md R72). -/
inductive Instr where
  /-- `NOP`, 0x00 (40_dispatch.md R100). -/
  | nop
  /-- `INIT`, 0x01 (42_streaming.md R150). -/
  | init
  /-- `UPDATE`, 0x02 (42_streaming.md R151). -/
  | update
  /-- `FINAL`, 0x03 (42_streaming.md R152). -/
  | final
  /-- `COMPRESS`, 0x04 (41_compression.md R125). -/
  | compress
  /-- `HASH`, 0x05 (42_streaming.md R153). -/
  | hash
  /-- `HMAC_KEY`, 0x06 (43_hmac.md R180). -/
  | hmacKey
  /-- `HMAC_MAC`, 0x07 (43_hmac.md R181). -/
  | hmacMac
  /-- `KDF`, 0x08 (44_kdf.md R195). -/
  | kdf
deriving DecidableEq, Repr

/-- The two fields of a command word, as the host composes them (30_encoding.md R70). -/
structure RawCommand where
  /-- Bits 7:0. -/
  opcode : BitVec 8
  /-- Bits 31:8, which must be 0. -/
  rsvd : BitVec 24
deriving DecidableEq, Repr

end Sys2Proof
end

