-- ==== Sys2Proof/WellFormed.lean ====
section
/-!
DEFINITION. When a raw command is legal (30_encoding.md R70, R72, R73), and the fields of each command. Since a
command has no operand field, a term of `Instr` is well-formed exactly when the fields it is encoded with are
legal; the checks that can fail are those of a raw command.
-/
namespace Sys2Proof

/-- Bits 31:8 must be 0, whatever the OPCODE (30_encoding.md R70, R73). -/
def RawCommand.rsvdZero (c : RawCommand) : Bool := c.rsvd == 0

/-- The OPCODE is one of the map's, 0x00 to 0x08 (30_encoding.md R72, R73). -/
def RawCommand.opcodeKnown (c : RawCommand) : Bool := c.opcode.toNat ≤ 8

/-- A raw command is legal when both checks pass (30_encoding.md R72, R73). -/
def RawCommand.wellFormed (c : RawCommand) : Bool := c.rsvdZero && c.opcodeKnown

/-- The OPCODE of each command (30_encoding.md R72). -/
def Instr.opcode : Instr → BitVec 8
  | .nop => 0x00
  | .init => 0x01
  | .update => 0x02
  | .final => 0x03
  | .compress => 0x04
  | .hash => 0x05
  | .hmacKey => 0x06
  | .hmacMac => 0x07
  | .kdf => 0x08

/-- The fields a command is encoded with (30_encoding.md R70, R72). -/
def Instr.raw (i : Instr) : RawCommand := ⟨i.opcode, 0⟩

/-- A command is well-formed when its fields are legal. -/
def Instr.wellFormed (i : Instr) : Bool := i.raw.wellFormed

end Sys2Proof
end

