-- ==== Sys2Proof/Decode.lean ====
section
/-!
DEFINITION. The command decoder, total on every 32-bit word and rejecting by name (30_encoding.md R70 to R73), and
after it the encoder, written from the same table.
-/
namespace Sys2Proof

/-- Why a command word is illegal (30_encoding.md R73). Both reasons end in ILLEGAL_COMMAND (60_exceptions.md R216). -/
inductive IllegalWord where
  /-- A nonzero bit in 31:8, whatever the OPCODE. -/
  | reservedBits
  /-- Bits 31:8 are 0 and the OPCODE is in 0x09..0xFF. -/
  | unknownOpcode
deriving DecidableEq, Repr

/-- Bits 7:0 of a command word (30_encoding.md R70). -/
def opcodeField (w : Word) : BitVec 8 := w.extractLsb' 0 8

/-- Bits 31:8 of a command word (30_encoding.md R70). -/
def rsvdField (w : Word) : BitVec 24 := w.extractLsb' 8 24

/-- The two fields of a command word (30_encoding.md R70). -/
def rawOfWord (w : Word) : RawCommand := ⟨opcodeField w, rsvdField w⟩

/-- The row of the opcode map an OPCODE selects (30_encoding.md R72). -/
def commandOf (opcode : BitVec 8) : Option Instr :=
  if opcode = 0x00 then some .nop
  else if opcode = 0x01 then some .init
  else if opcode = 0x02 then some .update
  else if opcode = 0x03 then some .final
  else if opcode = 0x04 then some .compress
  else if opcode = 0x05 then some .hash
  else if opcode = 0x06 then some .hmacKey
  else if opcode = 0x07 then some .hmacMac
  else if opcode = 0x08 then some .kdf
  else none

/-- The command a word selects, or why it is illegal (30_encoding.md R72, R73). -/
def decode (w : Word) : Except IllegalWord Instr :=
  if rsvdField w = 0 then
    match commandOf (opcodeField w) with
    | some i => .ok i
    | none => .error .unknownOpcode
  else .error .reservedBits

/-- The decoder without the reason of a rejection. -/
def decode? (w : Word) : Option Instr :=
  match decode w with
  | .ok i => some i
  | .error _ => none

/-- The word of a raw command: RSVD in bits 31:8, OPCODE in bits 7:0 (30_encoding.md R70). -/
def wordOfRaw (c : RawCommand) : Word := c.rsvd ++ c.opcode

/-- The command word of a command (30_encoding.md R70, R72). -/
def encode (i : Instr) : Word := wordOfRaw i.raw

/-- The command that the decoder reads from the `nbits` low bits of `w`, every higher bit being 0. A command is one
32-bit word (30_encoding.md R71), numbered as spec/opcode_table.json numbers it. -/
def decodeTableWord (nbits w : Nat) : Option Instr := decode? (BitVec.ofNat 32 (w % 2 ^ nbits))

end Sys2Proof
end

