-- ==== Sys2Proof/Machine/State.lean ====
section
/-!
DEFINITION. The state of one CORE instance (10_state.md R20), the system memory it masters (20_memory.md R50, R51), the
static platform map (R53), and the inputs still to come from outside: the host's operations and the order in
which the host and the engine move (00_scope.md R17). All of it is plain data.
-/
namespace Sys2Proof.Machine

/-- The two logical states of the streaming digest (42_streaming.md R140, R154). -/
inductive Phase where
  | accumulating
  | finalized
deriving DecidableEq, Repr

/-- The parameter registers (10_state.md R25, R26). Each 64-bit one is stored once; its LO and HI registers are
views of it. -/
structure Params where
  /-- `SRC_ADDR`. -/
  srcAddr : Addr
  /-- `SRC_LEN`. -/
  srcLen : DWord
  /-- `AUX_ADDR`. -/
  auxAddr : Addr
  /-- `AUX_LEN`. -/
  auxLen : DWord
  /-- `DST_ADDR`. -/
  dstAddr : Addr
  /-- `OUT_LEN`. -/
  outLen : DWord
  /-- `ITER`. -/
  iter : Word
deriving DecidableEq, Repr

/-- Every parameter register 0 (10_state.md R38). -/
def Params.zero : Params := ⟨0, 0, 0, 0, 0, 0, 0⟩

/-- What a range of the platform map holds (20_memory.md R60): memory free of side effects, or a device. -/
inductive RangeKind where
  | memory
  | device
deriving DecidableEq, Repr

/-- One range of the platform map: the addresses `base`, ..., `base + size - 1` exist (20_memory.md R50, R53). -/
structure Range where
  base : Addr
  size : Nat
  kind : RangeKind
deriving DecidableEq, Repr

/-- System memory: the bytes that differ from what an unlisted address reads as, by rising address (log entry 2). -/
abbrev Memory := List Host.Cell

/-- The width of a host access to the register window (10_state.md R34). -/
inductive AccessSize where
  | byte
  | half
  | word
  | dword
deriving DecidableEq, Repr

/-- One operation of the host (30_encoding.md R76; 70_reset_and_hazards.md R254). `cmd MNEMONIC` is a `wr` to CMD. -/
inductive HostOp where
  /-- `wr REG, v32`: a write to the register window at an offset (30_encoding.md R76). -/
  | wr (off : Offset) (size : AccessSize) (v : Word)
  /-- `rd REG`: a read of the register window at an offset (30_encoding.md R76). -/
  | rd (off : Offset) (size : AccessSize)
  /-- `wait`: read STATUS until DONE = 1 (30_encoding.md R76). -/
  | wait
  /-- Wait until the interrupt output is asserted (20_memory.md R65 (b), 60_exceptions.md R220). -/
  | waitIrq
  /-- Write one byte of system memory (70_reset_and_hazards.md R254). -/
  | store (a : Addr) (b : Byte)
  /-- Read one byte of system memory (70_reset_and_hazards.md R254). -/
  | load (a : Addr)
  /-- Assert the reset input (70_reset_and_hazards.md R240, R254). -/
  | assertReset
deriving DecidableEq, Repr

/-- The two agents (00_scope.md R17). -/
inductive Agent where
  | host
  | engine
deriving DecidableEq, Repr

/-- Why the model faults. -/
inductive Fault where
  /-- A host operation reads or writes a system-memory address that does not exist (20_memory.md R50, R62). Raised
  by `HostOp.store` and `HostOp.load`, never by a command (a command completes with UNMAPPED). Safe: the model
  stops where the platform does something the spec does not give. -/
  | hostUnmapped
deriving DecidableEq, Repr

/-- Why the model refuses. -/
inductive Refusal where
  /-- An instruction without a meaning. No arm of `exec` raises it. Safe. -/
  | notModelled (mnemonic : String)
  /-- A host access to the window that is not an aligned 32-bit one: "unspecified effect. A model refuses it"
  (10_state.md R34, U2). Raised by `HostOp.wr` and `HostOp.rd`. Safe. -/
  | windowAccess
  /-- A command that passed every check names a device in a region: "unspecified effect, and a model does not admit
  such a region" (20_memory.md R60, U3). Raised by every command that has a region. Safe. -/
  | deviceRegion
  /-- A host operation reads or writes a device in system memory, whose behaviour the spec does not give
  (20_memory.md R60, R62). Raised by `HostOp.store` and `HostOp.load`. Safe. -/
  | hostDevice
deriving DecidableEq, Repr

/-- The state. The first block is the spec's own (10_state.md R20, 40_dispatch.md R90, 20_memory.md R51, R53); the second
block is the model's own, the inputs still to come and what the host last read (log entries 6, 7, 10, 11). -/
structure State where
  /-- `S.H[0..7]`, the hash state. -/
  hstate : HashState
  /-- `S.buf`, the pending buffer. -/
  buf : List Byte
  /-- `S.cnt`, the bit counter. -/
  cnt : DWord
  /-- `S.phase`. -/
  phase : Phase
  /-- `S.key`, the normalised key block. -/
  key : List Byte
  /-- `S.kvalid`: the key context holds a key. -/
  kvalid : Bool
  /-- `S.busy`: a command is executing. -/
  busy : Bool
  /-- `S.done`: a command has completed and the host has not yet cleared this bit. -/
  done : Bool
  /-- `S.werr`: a register write was dropped because the engine was busy. -/
  werr : Bool
  /-- `S.err`, the error code of the last completed command. -/
  err : BitVec 8
  /-- `S.ie`, interrupt enable. -/
  ie : Bool
  /-- `S.P`, the parameter registers. -/
  params : Params
  /-- `S.Pc`, the snapshot of the parameter registers taken at acceptance (40_dispatch.md R90). -/
  snap : Params
  /-- `S.cmd`, the command word latched at acceptance. -/
  cmd : Word
  /-- System memory `M`. -/
  mem : Memory
  /-- The static platform map, `MAPPED` (20_memory.md R53). No step changes it. -/
  map : List Range
  /-- The host operations still to come, first one next. -/
  hostOps : List HostOp
  /-- The turns still to come, first one next; when none is listed the engine moves while a command runs, else the
  host. -/
  sched : List Agent
  /-- The bytes of the running command's regions that the host wrote since acceptance (20_memory.md R65 (c)). -/
  races : List Addr
  /-- What the last register read returned to the host. -/
  rdata : Word
  /-- What the last host read of system memory returned. -/
  mdata : Byte
  /-- How many free values have been drawn. -/
  draws : Nat
deriving DecidableEq, Repr

/-- What one step answers. -/
abbrev StepOutcome := Host.Outcome State Fault Refusal

/-- The machine right after reset (10_state.md R38, 70_reset_and_hazards.md R240). Where R38 says unspecified (`S.key`,
`S.cmd`), where it says nothing (`S.Pc`) and for the model's own fields the values are those of log entries 3 to
7, 10 and 11; the memory lists nothing (log entry 2) and the map is the platform of 95_test_vectors.md (log entry 1). -/
def State.reset : State where
  hstate := iv
  buf := []
  cnt := 0
  phase := .accumulating
  key := List.replicate 64 0
  kvalid := false
  busy := false
  done := false
  werr := false
  err := 0
  ie := false
  params := Params.zero
  snap := Params.zero
  cmd := 0
  mem := []
  map := [⟨0, 0x10000, .memory⟩]
  hostOps := []
  sched := []
  races := []
  rdata := 0
  mdata := 0
  draws := 0

end Sys2Proof.Machine
end

