-- ==== Sys2Proof/Machine/Ops.lean ====
section
/-!
DEFINITION. The named operations: byte sequences (00_scope.md R12), system memory in its canonical form (20_memory.md R51,
R55), acceptance of a command (40_dispatch.md R90), its completion with or without an error (R93, R94; 60_exceptions.md
R213, R223), and whose turn it is.
-/
namespace Sys2Proof.Machine

/-! ### Byte sequences (00_scope.md R12) -/

/-- `zeros(n)`. -/
def zeros (n : Nat) : List Byte := List.replicate n 0

/-- `xor(a, b)`: the bytewise XOR of two sequences of equal length. -/
def xorBytes (a b : List Byte) : List Byte := List.zipWith (· ^^^ ·) a b

/-- `BE32(n)`: the 4-byte big-endian encoding. -/
def be32 (w : Word) : List Byte :=
  [w.extractLsb' 24 8, w.extractLsb' 16 8, w.extractLsb' 8 8, w.extractLsb' 0 8]

/-- `BE64(n)`: the 8-byte big-endian encoding. -/
def be64 (d : DWord) : List Byte := be32 (d.extractLsb' 32 32) ++ be32 (d.extractLsb' 0 32)

/-- `BEW` of four bytes: the word whose big-endian encoding they are. -/
def bew (b0 b1 b2 b3 : Byte) : Word := b0 ++ b1 ++ b2 ++ b3

/-! ### System memory -/

/-- What an address that the memory does not list reads as. DESIGN CHOICE, unsafe (log entry 2). -/
def unlistedByte : Byte := 0

/-- The canonical form from address `lo` on: addresses rise strictly and stay below 2^64, and no listed byte is the one an
unlisted address reads as. -/
def Memory.wfFrom (lo : Nat) : Memory → Bool
  | [] => true
  | (k, b) :: m => decide (lo ≤ k) && decide (k < 2 ^ 64) && (b != unlistedByte) && Memory.wfFrom (k + 1) m

/-- The canonical form of a memory. -/
def Memory.wf (m : Memory) : Bool := Memory.wfFrom 0 m

/-- The byte listed for a key, or what an unlisted address reads as. -/
def Memory.lookup : Memory → Nat → Byte
  | [], _ => unlistedByte
  | (k, b) :: m, a => if k = a then b else Memory.lookup m a

/-- Store a byte under a key, in the canonical form: the byte an unlisted address reads as is not listed. -/
def Memory.insert : Memory → Nat → Byte → Memory
  | [], a, b => if b = unlistedByte then [] else [(a, b)]
  | (k, c) :: m, a, b =>
    if a < k then (if b = unlistedByte then (k, c) :: m else (a, b) :: (k, c) :: m)
    else if a = k then (if b = unlistedByte then m else (a, b) :: m)
    else (k, c) :: Memory.insert m a b

/-- `M(a)` (20_memory.md R51). -/
def Memory.read (m : Memory) (a : Addr) : Byte := Memory.lookup m a.toNat

/-- `M(a) <- b` (20_memory.md R55). -/
def Memory.write (m : Memory) (a : Addr) (b : Byte) : Memory := Memory.insert m a.toNat b

/-- `M(a) <- v[0]`, `M(a+1) <- v[1]`, ... (20_memory.md R55), leaving out the addresses of `skip`: the bytes of an
output region that the host wrote while the command ran keep the free value they hold (R65 (c), log entry 12). -/
def Memory.writeBytes (skip : List Addr) : Memory → Addr → List Byte → Memory
  | m, _, [] => m
  | m, a, b :: v => Memory.writeBytes skip (if skip.contains a then m else m.write a b) (a + 1) v

/-- Each of the `n` bytes from `a` upward holds any value: what reset leaves of the output region of the command it
abandons (70_reset_and_hazards.md R241). -/
def Memory.abandon (draw : Nat) : Memory → Addr → Nat → Memory
  | m, _, 0 => m
  | m, a, n + 1 => Memory.abandon draw (m.write a (Config.abandonedByte draw a)) (a + 1) n

/-- The byte the engine reads at an address, for operand `port` (0 source, 1 auxiliary): the byte of memory, or a
free value where the host wrote it since acceptance (20_memory.md R55, R65 (c)). -/
def State.inputByte (s : State) (port : Nat) (a : Addr) : Byte :=
  if s.races.contains a then Config.raceByte s.draws port a else s.mem.read a

/-- `MemRead(a, n)` (20_memory.md R55). -/
def State.memRead (s : State) (port : Nat) (a : Addr) : Nat → List Byte
  | 0 => []
  | n + 1 => s.inputByte port a :: s.memRead port (a + 1) n

/-- `MemWrite(a, len(v), v)` (20_memory.md R55): the memory after it. -/
def State.memWrite (s : State) (a : Addr) (v : List Byte) : Memory := Memory.writeBytes s.races s.mem a v

/-! ### Acceptance and completion -/

/-- The error codes (60_exceptions.md R210). -/
inductive ErrorCode where
  | invalidArgument
  | unsupportedLength
  | requestTooLarge
  | illegalCommand
  | sequenceError
  | keyNotSet
  | unmapped
deriving DecidableEq, Repr

/-- The value STATUS.ERR_CODE reports (60_exceptions.md R210). -/
def ErrorCode.code : ErrorCode → BitVec 8
  | .invalidArgument => 0x01
  | .unsupportedLength => 0x02
  | .requestTooLarge => 0x03
  | .illegalCommand => 0x04
  | .sequenceError => 0x05
  | .keyNotSet => 0x06
  | .unmapped => 0x07

/-- Acceptance of a command word (40_dispatch.md R90, R91): the word and the parameters are latched, BUSY is set, DONE and
ERR_CODE are cleared. No byte is raced yet, and the draw counter moves on, so that each command has its own free
values. -/
def State.accept (s : State) (w : Word) : State :=
  { s with
    cmd := w, snap := s.params, busy := true, done := false, err := 0,
    races := [], draws := s.draws + 1 }

/-- The command being executed, or why its word is illegal (40_dispatch.md R92, R93). -/
def State.currentCommand (s : State) : Except IllegalWord Instr := decode s.cmd

/-- The last lines of completion (40_dispatch.md R93): the code is reported, BUSY is cleared and DONE is set. -/
def State.complete (s : State) (code : BitVec 8) : State :=
  { s with err := code, busy := false, done := true, races := [] }

/-- Completion with `OK` of a command that leaves the contexts and the memory of `s` (40_dispatch.md R93). -/
def State.succeed (s : State) : StepOutcome := .next (s.complete 0)

/-- `raise Error(code)` (60_exceptions.md R213, R223; 40_dispatch.md R93, R94): the one shared operation of every error. The
command completes with the code and nothing else changes; there is no trap, no vector and no saved state. -/
def State.raise (s : State) (e : ErrorCode) : StepOutcome := .next (s.complete e.code)

/-! ### Turns -/

/-- Who moves next, and the state with that turn taken (00_scope.md R17, 40_dispatch.md R97, 60_exceptions.md R222): the
listed turn; when none is listed, the engine while a command runs, else the host (log entry 7). -/
def State.turn (s : State) : Agent × State :=
  match s.sched with
  | a :: rest => (a, { s with sched := rest })
  | [] => (if s.busy then .engine else .host, s)

end Sys2Proof.Machine
end

