-- ==== Sys2Proof/Machine/Operands.lean ====
section
/-!
DEFINITION. The one operand form, the region (20_memory.md R52 to R54), which regions each command has (30_encoding.md
R75), and the length limits (00_scope.md R9; 42_streaming.md R146; 43_hmac.md R175; 44_kdf.md R197).
-/
namespace Sys2Proof.Machine

/-- A region: an address and a length (20_memory.md R52). -/
structure Region where
  base : Addr
  len : DWord
deriving DecidableEq, Repr

/-- `wellformed(a, l)`: a + l <= 2^64, computed without wrap-around (20_memory.md R52). -/
def Region.wellFormed (r : Region) : Bool := decide (r.base.toNat + r.len.toNat ≤ 2 ^ 64)

/-- The region names the byte at `a` (20_memory.md R52). -/
def Region.covers (r : Region) (a : Addr) : Bool :=
  decide (r.base.toNat ≤ a.toNat) && decide (a.toNat < r.base.toNat + r.len.toNat)

/-- `overlap(r1, r2)`, computed without wrap-around (20_memory.md R54). -/
def Region.overlaps (r1 r2 : Region) : Bool :=
  decide (0 < r1.len.toNat) && decide (0 < r2.len.toNat) &&
  decide (r1.base.toNat < r2.base.toNat + r2.len.toNat) && decide (r2.base.toNat < r1.base.toNat + r1.len.toNat)

/-- A range of the platform map holds the address `a`. -/
def Range.contains (r : Range) (a : Addr) : Bool :=
  decide (r.base.toNat ≤ a.toNat) && decide (a.toNat < r.base.toNat + r.size)

/-- `MAPPED(a)`: the address exists (20_memory.md R50, R53). An address that a translation or protection unit would deny is not
mapped (R63). DESIGN CHOICE: the one map holds such denials, for every command and for the host alike; safe for one command or one
host access, unsafe for several commands on a platform whose denials change between them (log entry 27). -/
def State.mappedAddr (s : State) (a : Addr) : Bool := s.map.any (·.contains a)

/-- The address belongs to a device (20_memory.md R60). -/
def State.deviceAddr (s : State) (a : Addr) : Bool :=
  s.map.any fun r => r.contains a && decide (r.kind = .device)

/-- A property of every one of the `n` addresses from `a` upward. -/
def everyByte (p : Addr → Bool) (a : Addr) : Nat → Bool
  | 0 => true
  | n + 1 => p a && everyByte p (a + 1) n

/-- `mapped(a, l)`: every byte of the region exists (20_memory.md R53). -/
def State.mapped (s : State) (r : Region) : Bool := everyByte s.mappedAddr r.base r.len.toNat

/-- No byte of the region is a device's: the model admits the region (20_memory.md R60). -/
def State.admits (s : State) (r : Region) : Bool := everyByte (fun a => !s.deviceAddr a) r.base r.len.toNat

/-- `(SRC_ADDR, SRC_LEN)`. -/
def Params.src (p : Params) : Region := ⟨p.srcAddr, p.srcLen⟩

/-- `(AUX_ADDR, AUX_LEN)`. -/
def Params.aux (p : Params) : Region := ⟨p.auxAddr, p.auxLen⟩

/-- `(DST_ADDR, 32)`. -/
def Params.dst32 (p : Params) : Region := ⟨p.dstAddr, 32⟩

/-- `(DST_ADDR, OUT_LEN)`. -/
def Params.dstOut (p : Params) : Region := ⟨p.dstAddr, p.outLen⟩

/-- The input regions of each command (30_encoding.md R75). -/
def Instr.inputRegions (i : Instr) (p : Params) : List Region :=
  match i with
  | .nop => []
  | .init => []
  | .update => [p.src]
  | .final => []
  | .compress => [p.src]
  | .hash => [p.src]
  | .hmacKey => [p.src]
  | .hmacMac => [p.src]
  | .kdf => [p.src, p.aux]

/-- The output region of each command (30_encoding.md R75). -/
def Instr.outputRegion (i : Instr) (p : Params) : Option Region :=
  match i with
  | .nop => none
  | .init => none
  | .update => none
  | .final => some p.dst32
  | .compress => none
  | .hash => some p.dst32
  | .hmacKey => none
  | .hmacMac => some p.dst32
  | .kdf => some p.dstOut

/-- The input regions of the running command: none while idle or when its word is illegal. -/
def State.runningInputs (s : State) : List Region :=
  match s.busy, s.currentCommand with
  | true, .ok i => Instr.inputRegions i s.snap
  | _, _ => []

/-- The output region of the running command, if it has one. -/
def State.runningOutput (s : State) : Option Region :=
  match s.busy, s.currentCommand with
  | true, .ok i => Instr.outputRegion i s.snap
  | _, _ => none

/-- The byte at `a` belongs to an input region of the running command. -/
def State.ownedInput (s : State) (a : Addr) : Bool := s.runningInputs.any (·.covers a)

/-- The byte at `a` belongs to the output region of the running command. -/
def State.ownedOutput (s : State) (a : Addr) : Bool :=
  match s.runningOutput with
  | some r => r.covers a
  | none => false

/-- The bytes of a region, read for operand `port` (20_memory.md R55). -/
def State.readRegion (s : State) (port : Nat) (r : Region) : List Byte := s.memRead port r.base r.len.toNat

/-- `LMAX`: the most bytes one digest takes in (42_streaming.md R146, 90_conflicts.md C1). -/
def lmax : Nat := 2 ^ 61 - 1

/-- `OUTMAX`: the longest derived key (44_kdf.md R197). -/
def outMax : Nat := 32 * (2 ^ 32 - 1)

end Sys2Proof.Machine
end

