-- ==== Sys2Proof/Machine/Compression.lean ====
section
/-!
DEFINITION. The compression function (41_compression.md R111 to R122) and COMPRESS (R125).
-/
namespace Sys2Proof.Machine

/-- `ROTR^n(x)`, for 0 < n < 32 (00_scope.md R11). -/
def rotr (n : Nat) (x : Word) : Word := (x >>> n) ||| (x <<< (32 - n))

/-- `SHR^n(x)` (00_scope.md R11). -/
def shr (n : Nat) (x : Word) : Word := x >>> n

/-- `Ch` (41_compression.md R111). -/
def ch (x y z : Word) : Word := (x &&& y) ^^^ (~~~x &&& z)

/-- `Maj` (41_compression.md R112). -/
def maj (x y z : Word) : Word := (x &&& y) ^^^ (x &&& z) ^^^ (y &&& z)

/-- `BSIG0` (41_compression.md R113). -/
def bsig0 (x : Word) : Word := rotr 2 x ^^^ rotr 13 x ^^^ rotr 22 x

/-- `BSIG1` (41_compression.md R113). -/
def bsig1 (x : Word) : Word := rotr 6 x ^^^ rotr 11 x ^^^ rotr 25 x

/-- `SSIG0` (41_compression.md R114). -/
def ssig0 (x : Word) : Word := rotr 7 x ^^^ rotr 18 x ^^^ shr 3 x

/-- `SSIG1` (41_compression.md R114). -/
def ssig1 (x : Word) : Word := rotr 17 x ^^^ rotr 19 x ^^^ shr 10 x

/-- Schedule words 0 to 15: four bytes each, most significant first (41_compression.md R117). -/
def blockWords : List Byte → List Word
  | b0 :: b1 :: b2 :: b3 :: rest => bew b0 b1 b2 b3 :: blockWords rest
  | _ => []

/-- The next schedule word from those before it, the newest first (41_compression.md R118). -/
def nextWord (newest : List Word) : Word :=
  ssig1 (newest.getD 1 0) + newest.getD 6 0 + ssig0 (newest.getD 14 0) + newest.getD 15 0

/-- `n` more schedule words in front of those before them, the newest first (41_compression.md R118). -/
def extendSchedule : Nat → List Word → List Word
  | 0, ws => ws
  | n + 1, ws => extendSchedule n (nextWord ws :: ws)

/-- `Schedule(B)`: the words W[0..63] (41_compression.md R117, R118). -/
def schedule (b : List Byte) : List Word := (extendSchedule 48 (blockWords b).reverse).reverse

/-- The working registers (41_compression.md R119). -/
structure WorkRegs where
  a : Word
  b : Word
  c : Word
  d : Word
  e : Word
  f : Word
  g : Word
  h : Word
deriving DecidableEq, Repr

/-- The working registers loaded from the hash state (41_compression.md R119). -/
def loadRegs (h : HashState) : WorkRegs := ⟨h.h0, h.h1, h.h2, h.h3, h.h4, h.h5, h.h6, h.h7⟩

/-- `T1` of a round (41_compression.md R120). -/
def roundT1 (r : WorkRegs) (k w : Word) : Word := r.h + bsig1 r.e + ch r.e r.f r.g + k + w

/-- `T2` of a round (41_compression.md R120). -/
def roundT2 (r : WorkRegs) : Word := bsig0 r.a + maj r.a r.b r.c

/-- One round with its constant and schedule word; every assignment uses the values from before the round
(41_compression.md R120). -/
def hashRound (r : WorkRegs) (k w : Word) : WorkRegs :=
  ⟨roundT1 r k w + roundT2 r, r.a, r.b, r.c, r.d + roundT1 r k w, r.e, r.f, r.g⟩

/-- The rounds in increasing order (41_compression.md R120). -/
def runRounds (r : WorkRegs) (kws : List (Word × Word)) : WorkRegs :=
  kws.foldl (fun r kw => hashRound r kw.1 kw.2) r

/-- The working registers added into the state element-wise (41_compression.md R121). -/
def addRegs (h : HashState) (r : WorkRegs) : HashState :=
  ⟨h.h0 + r.a, h.h1 + r.b, h.h2 + r.c, h.h3 + r.d, h.h4 + r.e, h.h5 + r.f, h.h6 + r.g, h.h7 + r.h⟩

/-- `Compress(H, B)` (41_compression.md R110, R122). -/
def compressBlock (h : HashState) (b : List Byte) : HashState :=
  addRegs h (runRounds (loadRegs h) (roundConstants.zip (schedule b)))

/-- `COMPRESS` (41_compression.md R125). -/
def execCompress (s : State) : StepOutcome :=
  if !s.snap.src.wellFormed then s.raise .invalidArgument
  else if s.snap.srcLen ≠ 64 then s.raise .invalidArgument
  else if !s.mapped s.snap.src then s.raise .unmapped
  else if !s.admits s.snap.src then .refused .deviceRegion
  else State.succeed { s with hstate := compressBlock s.hstate (s.readRegion 0 s.snap.src) }

end Sys2Proof.Machine
end

