-- ==== Sys2Proof/Machine/Streaming.lean ====
section
/-!
DEFINITION. The streaming digest (42_streaming.md R140 to R149) and INIT, UPDATE, FINAL, HASH (R150 to R153).
-/
namespace Sys2Proof.Machine

/-- The part of the streaming context that `Absorb` and `Finish` work on: `(H, buf, cnt)` (42_streaming.md R141, R144). -/
structure Stream where
  h : HashState
  buf : List Byte
  cnt : DWord
deriving DecidableEq, Repr

/-- `(IV, [], 0)` (42_streaming.md R149). -/
def Stream.initial : Stream := ⟨iv, [], 0⟩

/-- One byte appended to the buffer, which is compressed and cleared when it reaches 64 bytes (42_streaming.md R141). -/
def absorbByte (hb : HashState × List Byte) (x : Byte) : HashState × List Byte :=
  if (hb.2 ++ [x]).length = 64 then (compressBlock hb.1 (hb.2 ++ [x]), []) else (hb.1, hb.2 ++ [x])

/-- The bytes appended one after another (42_streaming.md R141). -/
def absorbBytes (hb : HashState × List Byte) (d : List Byte) : HashState × List Byte := d.foldl absorbByte hb

/-- `Absorb((H, buf, cnt), D)` (42_streaming.md R141). -/
def absorb (c : Stream) (d : List Byte) : Stream :=
  ⟨(absorbBytes (c.h, c.buf) d).1, (absorbBytes (c.h, c.buf) d).2, c.cnt + BitVec.ofNat 64 (8 * d.length)⟩

/-- The last block: a buffer of at most 56 bytes, zeros up to 56, and the bit count (42_streaming.md R144). -/
def lengthBlock (b : List Byte) (cnt : DWord) : List Byte := b ++ zeros (56 - b.length) ++ be64 cnt

/-- `Finish((H, buf, cnt))` (42_streaming.md R144). -/
def finish (c : Stream) : HashState :=
  if (c.buf ++ [0x80]).length > 56 then
    compressBlock (compressBlock c.h (c.buf ++ [0x80] ++ zeros (64 - (c.buf ++ [0x80]).length))) (lengthBlock [] c.cnt)
  else compressBlock c.h (lengthBlock (c.buf ++ [0x80]) c.cnt)

/-- `Digest(H)` (42_streaming.md R148). -/
def digest (h : HashState) : List Byte :=
  be32 h.h0 ++ be32 h.h1 ++ be32 h.h2 ++ be32 h.h3 ++ be32 h.h4 ++ be32 h.h5 ++ be32 h.h6 ++ be32 h.h7

/-- `SHA256(m)` (42_streaming.md R149). -/
def sha256 (m : List Byte) : List Byte := digest (finish (absorb Stream.initial m))

/-- The streaming context's part of the state. -/
def State.stream (s : State) : Stream := ⟨s.hstate, s.buf, s.cnt⟩

/-- The state with that part replaced. -/
def State.setStream (s : State) (c : Stream) : State := { s with hstate := c.h, buf := c.buf, cnt := c.cnt }

/-- `INIT` (42_streaming.md R150). -/
def execInit (s : State) : StepOutcome :=
  State.succeed { s with hstate := iv, buf := [], cnt := 0, phase := .accumulating }

/-- `UPDATE` (42_streaming.md R151). -/
def execUpdate (s : State) : StepOutcome :=
  if s.phase = .finalized then s.raise .sequenceError
  else if !s.snap.src.wellFormed then s.raise .invalidArgument
  else if s.cnt.toNat / 8 + s.snap.srcLen.toNat > lmax then s.raise .unsupportedLength
  else if !s.mapped s.snap.src then s.raise .unmapped
  else if !s.admits s.snap.src then .refused .deviceRegion
  else State.succeed (s.setStream (absorb s.stream (s.readRegion 0 s.snap.src)))

/-- `FINAL` (42_streaming.md R152). -/
def execFinal (s : State) : StepOutcome :=
  if s.phase = .finalized then s.raise .sequenceError
  else if !s.snap.dst32.wellFormed then s.raise .invalidArgument
  else if !s.mapped s.snap.dst32 then s.raise .unmapped
  else if !s.admits s.snap.dst32 then .refused .deviceRegion
  else State.succeed { s with
    hstate := finish s.stream, buf := [], phase := .finalized,
    mem := s.memWrite s.snap.dstAddr (digest (finish s.stream)) }

/-- `HASH` (42_streaming.md R153). -/
def execHash (s : State) : StepOutcome :=
  if !s.snap.src.wellFormed then s.raise .invalidArgument
  else if !s.snap.dst32.wellFormed then s.raise .invalidArgument
  else if s.snap.dst32.overlaps s.snap.src then s.raise .invalidArgument
  else if s.snap.srcLen.toNat > lmax then s.raise .unsupportedLength
  else if !s.mapped s.snap.src || !s.mapped s.snap.dst32 then s.raise .unmapped
  else if !s.admits s.snap.src || !s.admits s.snap.dst32 then .refused .deviceRegion
  else State.succeed { s with mem := s.memWrite s.snap.dstAddr (sha256 (s.readRegion 0 s.snap.src)) }

end Sys2Proof.Machine
end

