-- ==== Sys2Proof/Machine/Hmac.lean ====
section
/-!
DEFINITION. The keyed hash (43_hmac.md R170 to R175) and HMAC_KEY, HMAC_MAC (R180, R181).
-/
namespace Sys2Proof.Machine

/-- `NormKey(k)` (43_hmac.md R171). -/
def normKey (k : List Byte) : List Byte :=
  if k.length > 64 then sha256 k ++ zeros 32 else k ++ zeros (64 - k.length)

/-- `IPAD(K0)` (43_hmac.md R172). -/
def ipad (k0 : List Byte) : List Byte := xorBytes k0 (List.replicate 64 0x36)

/-- `OPAD(K0)` (43_hmac.md R172). -/
def opad (k0 : List Byte) : List Byte := xorBytes k0 (List.replicate 64 0x5C)

/-- `HMACk(K0, m)` (43_hmac.md R173). -/
def hmacK (k0 m : List Byte) : List Byte := sha256 (opad k0 ++ sha256 (ipad k0 ++ m))

/-- `HMAC(k, m)` (43_hmac.md R173). -/
def hmac (k m : List Byte) : List Byte := hmacK (normKey k) m

/-- `HMAC_KEY` (43_hmac.md R180). -/
def execHmacKey (s : State) : StepOutcome :=
  if !s.snap.src.wellFormed then s.raise .invalidArgument
  else if s.snap.srcLen.toNat > lmax then s.raise .unsupportedLength
  else if !s.mapped s.snap.src then s.raise .unmapped
  else if !s.admits s.snap.src then .refused .deviceRegion
  else State.succeed { s with key := normKey (s.readRegion 0 s.snap.src), kvalid := true }

/-- `HMAC_MAC` (43_hmac.md R181). -/
def execHmacMac (s : State) : StepOutcome :=
  if s.kvalid = false then s.raise .keyNotSet
  else if !s.snap.src.wellFormed then s.raise .invalidArgument
  else if !s.snap.dst32.wellFormed then s.raise .invalidArgument
  else if s.snap.dst32.overlaps s.snap.src then s.raise .invalidArgument
  else if s.snap.srcLen.toNat > lmax - 64 then s.raise .unsupportedLength
  else if !s.mapped s.snap.src || !s.mapped s.snap.dst32 then s.raise .unmapped
  else if !s.admits s.snap.src || !s.admits s.snap.dst32 then .refused .deviceRegion
  else State.succeed { s with mem := s.memWrite s.snap.dstAddr (hmacK s.key (s.readRegion 0 s.snap.src)) }

end Sys2Proof.Machine
end

