-- ==== Sys2Proof/Machine/Kdf.lean ====
section
/-!
DEFINITION. The iterative key derivation (44_kdf.md R190 to R194) and KDF (R195).
-/
namespace Sys2Proof.Machine

/-- `n` more iterations of a block's fold: `U <- HMACk(K0, U)`, `T <- xor(T, U)` (44_kdf.md R192). -/
def kdfFold (k0 : List Byte) : Nat → List Byte → List Byte → List Byte
  | 0, _, t => t
  | n + 1, u, t => kdfFold k0 n (hmacK k0 u) (xorBytes t (hmacK k0 u))

/-- `U1` of block `i`: `HMACk(K0, Salt || BE32(i))` (44_kdf.md R191). -/
def kdfFirst (k0 salt : List Byte) (i : Nat) : List Byte := hmacK k0 (salt ++ be32 (BitVec.ofNat 32 i))

/-- Block `i` under `it` iterations (44_kdf.md R191, R192). -/
def kdfBlock (k0 salt : List Byte) (it i : Nat) : List Byte :=
  kdfFold k0 (it - 1) (kdfFirst k0 salt i) (kdfFirst k0 salt i)

/-- Blocks 1 to `nb`, in index order (44_kdf.md R193). -/
def kdfBlocks (k0 salt : List Byte) (it : Nat) : Nat → List Byte
  | 0 => []
  | nb + 1 => kdfBlocks k0 salt it nb ++ kdfBlock k0 salt it (nb + 1)

/-- The number of iterations of a count: 0 is normalised to 1 (44_kdf.md R194). -/
def iterations (c : Word) : Nat := max c.toNat 1

/-- The number of 32-byte blocks of an output of `n` bytes: `ceil(n / 32)` (44_kdf.md R193). -/
def blockCount (n : Nat) : Nat := (n + 31) / 32

/-- `PBKDF(P, Salt, c, n)` (44_kdf.md R193). -/
def pbkdf (p salt : List Byte) (c : Word) (n : Nat) : List Byte :=
  (kdfBlocks (normKey p) salt (iterations c) (blockCount n)).take n

/-- `KDF` (44_kdf.md R195). -/
def execKdf (s : State) : StepOutcome :=
  if !s.snap.src.wellFormed then s.raise .invalidArgument
  else if !s.snap.aux.wellFormed then s.raise .invalidArgument
  else if !s.snap.dstOut.wellFormed then s.raise .invalidArgument
  else if s.snap.dstOut.overlaps s.snap.src || s.snap.dstOut.overlaps s.snap.aux then s.raise .invalidArgument
  else if s.snap.outLen.toNat > outMax then s.raise .requestTooLarge
  else if s.snap.srcLen.toNat > lmax ∨ s.snap.auxLen.toNat > lmax - 68 then s.raise .unsupportedLength
  else if !(s.mapped s.snap.src && s.mapped s.snap.aux && s.mapped s.snap.dstOut) then s.raise .unmapped
  else if !(s.admits s.snap.src && s.admits s.snap.aux && s.admits s.snap.dstOut) then .refused .deviceRegion
  else State.succeed { s with
    mem := s.memWrite s.snap.dstAddr
      (pbkdf (s.readRegion 0 s.snap.src) (s.readRegion 1 s.snap.aux) s.snap.iter s.snap.outLen.toNat) }

end Sys2Proof.Machine
end

