-- ==== Sys2Proof/Machine/System.lean ====
section
/-!
DEFINITION. NOP (40_dispatch.md R100). Every meaning is `Exec` followed by completion (R92, R93) from a state in which
the command runs with its parameter snapshot.
-/
namespace Sys2Proof.Machine

/-- `NOP` (40_dispatch.md R100): succeeds and changes nothing. -/
def execNop (s : State) : StepOutcome := s.succeed

end Sys2Proof.Machine
end

