-- ==== Sys2Proof/Machine/Flags.lean ====
section
/-!
DEFINITION. The status word, the control word and the interrupt output (10_state.md R27, R28, R32; 60_exceptions.md R220).
The CORE has no arithmetic flag (41_compression.md R123).
-/
namespace Sys2Proof.Machine

/-- The fields of STATUS in their places, every reserved bit 0 (10_state.md R27). -/
def packStatus (busy done werr phase keyValid : Bool) (bufLen : BitVec 6) (errCode : BitVec 8) : Word :=
  (0 : BitVec 8) ++ errCode ++ (0 : BitVec 2) ++ bufLen ++ (0 : BitVec 3) ++ BitVec.ofBool keyValid ++
    BitVec.ofBool phase ++ BitVec.ofBool werr ++ BitVec.ofBool done ++ BitVec.ofBool busy

/-- STATUS.PHASE: 0 is ACCUMULATING, 1 is FINALIZED (10_state.md R27). -/
def Phase.bit (p : Phase) : Bool :=
  match p with
  | .accumulating => false
  | .finalized => true

/-- STATUS while no command runs (10_state.md R27). -/
def State.idleStatus (s : State) : Word :=
  packStatus s.busy s.done s.werr s.phase.bit s.kvalid (BitVec.ofNat 6 s.buf.length) s.err

/-- STATUS while a command runs (10_state.md R32): BUSY 1, DONE 0, ERR_CODE 0, the current WERR; PHASE, KEY_VALID and
BUF_LEN are the bits of the free word `f`. -/
def State.busyStatus (s : State) (f : Word) : Word :=
  packStatus true false s.werr (f.getLsbD 3) (f.getLsbD 4) (f.extractLsb' 8 6) 0

/-- STATUS.DONE in a status word (10_state.md R27). -/
def statusDone (w : Word) : Bool := w.getLsbD 1

/-- A write to STATUS: writing 1 to DONE or WERR clears it, and the read-only fields ignore the write (10_state.md R27). -/
def State.writeStatus (s : State) (v : Word) : State :=
  { s with done := s.done && !v.getLsbD 1, werr := s.werr && !v.getLsbD 2 }

/-- CTRL: IE in bit 0, bits 31:1 read 0 (10_state.md R28). -/
def State.ctrlWord (s : State) : Word := (0 : BitVec 31) ++ BitVec.ofBool s.ie

/-- A write to CTRL: bit 0 is IE, the reserved bits ignore the write (10_state.md R28). -/
def State.writeCtrl (s : State) (v : Word) : State := { s with ie := v.getLsbD 0 }

/-- The interrupt output, a level: `IRQ = S.done AND S.ie` (60_exceptions.md R220). -/
def State.irq (s : State) : Bool := s.done && s.ie

end Sys2Proof.Machine
end

