-- ==== Sys2Proof/Machine/Window.lean ====
section
/-!
DEFINITION. The register window (10_state.md R25 to R35) and the operations of the host (30_encoding.md R76;
70_reset_and_hazards.md R240, R241, R254).
-/
namespace Sys2Proof.Machine

/-- The registers of the window (10_state.md R25). -/
inductive Reg where
  | cmd
  | status
  | ctrl
  | srcAddrLo
  | srcAddrHi
  | srcLenLo
  | srcLenHi
  | auxAddrLo
  | auxAddrHi
  | auxLenLo
  | auxLenHi
  | dstAddrLo
  | dstAddrHi
  | outLenLo
  | outLenHi
  | iter
  | bitcntLo
  | bitcntHi
  | h (i : Fin 8)
  | reserved
deriving DecidableEq, Repr

/-- The register at a 4-byte-aligned offset (10_state.md R25). -/
def regAt (off : Offset) : Reg :=
  if off = 0x000 then .cmd
  else if off = 0x004 then .status
  else if off = 0x008 then .ctrl
  else if off = 0x010 then .srcAddrLo
  else if off = 0x014 then .srcAddrHi
  else if off = 0x018 then .srcLenLo
  else if off = 0x01C then .srcLenHi
  else if off = 0x020 then .auxAddrLo
  else if off = 0x024 then .auxAddrHi
  else if off = 0x028 then .auxLenLo
  else if off = 0x02C then .auxLenHi
  else if off = 0x030 then .dstAddrLo
  else if off = 0x034 then .dstAddrHi
  else if off = 0x038 then .outLenLo
  else if off = 0x03C then .outLenHi
  else if off = 0x040 then .iter
  else if off = 0x050 then .bitcntLo
  else if off = 0x054 then .bitcntHi
  else if off = 0x060 then .h 0
  else if off = 0x064 then .h 1
  else if off = 0x068 then .h 2
  else if off = 0x06C then .h 3
  else if off = 0x070 then .h 4
  else if off = 0x074 then .h 5
  else if off = 0x078 then .h 6
  else if off = 0x07C then .h 7
  else .reserved

/-- The LO register of a 64-bit value: bits 31:0 (10_state.md R25). -/
def loHalf (d : DWord) : Word := d.extractLsb' 0 32

/-- The HI register of a 64-bit value: bits 63:32 (10_state.md R25). -/
def hiHalf (d : DWord) : Word := d.extractLsb' 32 32

/-- A 64-bit value with its LO register written (30_encoding.md R74). -/
def setLo (d : DWord) (v : Word) : DWord := hiHalf d ++ v

/-- A 64-bit value with its HI register written (30_encoding.md R74). -/
def setHi (d : DWord) (v : Word) : DWord := v ++ loHalf d

/-- What a read of a register returns while no command runs (10_state.md R25 to R30, R33). -/
def State.idleRead (s : State) (r : Reg) : Word :=
  match r with
  | .cmd => 0
  | .status => s.idleStatus
  | .ctrl => s.ctrlWord
  | .srcAddrLo => loHalf s.params.srcAddr
  | .srcAddrHi => hiHalf s.params.srcAddr
  | .srcLenLo => loHalf s.params.srcLen
  | .srcLenHi => hiHalf s.params.srcLen
  | .auxAddrLo => loHalf s.params.auxAddr
  | .auxAddrHi => hiHalf s.params.auxAddr
  | .auxLenLo => loHalf s.params.auxLen
  | .auxLenHi => hiHalf s.params.auxLen
  | .dstAddrLo => loHalf s.params.dstAddr
  | .dstAddrHi => hiHalf s.params.dstAddr
  | .outLenLo => loHalf s.params.outLen
  | .outLenHi => hiHalf s.params.outLen
  | .iter => s.params.iter
  | .bitcntLo => loHalf s.cnt
  | .bitcntHi => hiHalf s.cnt
  | .h i => s.hstate.get i
  | .reserved => 0

/-- What a read of a register returns while a command runs, `f` being the free word drawn for it (10_state.md R32):
H0..H7 and BITCNT are unspecified, STATUS is so in part, every other register reads as while idle. -/
def State.busyRead (s : State) (f : Word) (r : Reg) : Word :=
  match r with
  | .status => s.busyStatus f
  | .bitcntLo => f
  | .bitcntHi => f
  | .h _ => f
  | r => s.idleRead r

/-- What a register read returns now (10_state.md R25, R32). -/
def State.readReg (s : State) (r : Reg) : Word :=
  if s.busy then s.busyRead (Config.freeWord s.draws) r else s.idleRead r

/-- A register read by the host: the value goes to `rdata`; while a command runs the draw counter moves on, so that the next
read draws a fresh value (10_state.md R32). Nothing else changes (30_encoding.md R78). -/
def State.hostRead (s : State) (r : Reg) : State :=
  { s with rdata := s.readReg r, draws := if s.busy then s.draws + 1 else s.draws }

/-- A parameter register written (10_state.md R26); every other register leaves the parameters alone. -/
def Params.write (p : Params) (r : Reg) (v : Word) : Params :=
  match r with
  | .srcAddrLo => { p with srcAddr := setLo p.srcAddr v }
  | .srcAddrHi => { p with srcAddr := setHi p.srcAddr v }
  | .srcLenLo => { p with srcLen := setLo p.srcLen v }
  | .srcLenHi => { p with srcLen := setHi p.srcLen v }
  | .auxAddrLo => { p with auxAddr := setLo p.auxAddr v }
  | .auxAddrHi => { p with auxAddr := setHi p.auxAddr v }
  | .auxLenLo => { p with auxLen := setLo p.auxLen v }
  | .auxLenHi => { p with auxLen := setHi p.auxLen v }
  | .dstAddrLo => { p with dstAddr := setLo p.dstAddr v }
  | .dstAddrHi => { p with dstAddr := setHi p.dstAddr v }
  | .outLenLo => { p with outLen := setLo p.outLen v }
  | .outLenHi => { p with outLen := setHi p.outLen v }
  | .iter => { p with iter := v }
  | _ => p

/-- The registers whose writes the CORE drops while a command runs: CMD, the parameter registers and H0..H7
(10_state.md R31). -/
def Reg.guarded (r : Reg) : Bool :=
  match r with
  | .status => false
  | .ctrl => false
  | .bitcntLo => false
  | .bitcntHi => false
  | .reserved => false
  | _ => true

/-- A register write while no command runs, or to a register that is not guarded (10_state.md R27 to R30, R33;
40_dispatch.md R90). -/
def State.applyWrite (s : State) (r : Reg) (v : Word) : State :=
  match r with
  | .cmd => s.accept v
  | .status => s.writeStatus v
  | .ctrl => s.writeCtrl v
  | .h i => { s with hstate := s.hstate.set i v }
  | .bitcntLo => s
  | .bitcntHi => s
  | .reserved => s
  | r => { s with params := s.params.write r v }

/-- A register write by the host (10_state.md R31): while a command runs a guarded one is dropped and sets WERR. -/
def State.hostWrite (s : State) (r : Reg) (v : Word) : State :=
  if s.busy && r.guarded then { s with werr := true } else s.applyWrite r v

/-- The window takes only naturally aligned 32-bit accesses (10_state.md R34). -/
def windowAccessOk (off : Offset) (size : AccessSize) : Bool :=
  decide (size = .word) && decide (off.toNat % 4 = 0)

/-- A byte of system memory written by the host (70_reset_and_hazards.md R246, R254; 20_memory.md R65 (c)). A byte of the running
command's output region is left with a free value; a byte of an input region is written and its later read by
the engine is free; both are noted in `races`. DESIGN CHOICE, safe: an address denied to the CORE alone (20_memory.md R63) faults
here too, because one map serves both (log entry 27). -/
def State.hostStore (s : State) (a : Addr) (b : Byte) : StepOutcome :=
  if !s.mappedAddr a then .fault .hostUnmapped
  else if s.deviceAddr a then .refused .hostDevice
  else if s.ownedOutput a then
    .next { s with
      mem := s.mem.write a (Config.freeByte s.draws), races := s.races.insert a, draws := s.draws + 1 }
  else if s.ownedInput a then .next { s with mem := s.mem.write a b, races := s.races.insert a }
  else .next { s with mem := s.mem.write a b }

/-- A byte of system memory read by the host (70_reset_and_hazards.md R246, R254; 20_memory.md R65 (c)): a byte of the
running command's output region reads as a free value. DESIGN CHOICE, safe: an address denied to the CORE alone (20_memory.md
R63) faults here too, because one map serves both (log entry 27). -/
def State.hostLoad (s : State) (a : Addr) : StepOutcome :=
  if !s.mappedAddr a then .fault .hostUnmapped
  else if s.deviceAddr a then .refused .hostDevice
  else if s.ownedOutput a then .next { s with mdata := Config.freeByte s.draws, draws := s.draws + 1 }
  else .next { s with mdata := s.mem.read a }

/-- The memory after reset (70_reset_and_hazards.md R240, R241): unchanged while idle; while a command runs each existing
byte of its output region holds any value. DESIGN CHOICE, unsafe: a running command whose region names a device is abandoned
here like any other, although 20_memory.md R60 calls its effect unspecified; a device's bytes in the output region are drawn
too (log entry 28). -/
def State.memAfterReset (s : State) : Memory :=
  match s.runningOutput with
  | some r => Memory.abandon s.draws s.mem r.base (min r.len.toNat (2 ^ 64 - r.base.toNat))
  | none => s.mem

/-- Asserting the reset input (70_reset_and_hazards.md R240, R241): every component of S takes its reset value. The memory, the
platform map and what belongs to the host (its operations to come, the turns, what it last read) are not
components of S. -/
def State.assertReset (s : State) : State :=
  { State.reset with
    mem := s.memAfterReset, map := s.map, hostOps := s.hostOps, sched := s.sched,
    rdata := s.rdata, mdata := s.mdata, draws := s.draws + 1 }

/-- One host operation, already taken off the list. `wait` and `waitIrq` put themselves back while what they wait for has not
come (30_encoding.md R76, 60_exceptions.md R220). -/
def State.hostOperation (s : State) (op : HostOp) : StepOutcome :=
  match op with
  | .wr off size v => if windowAccessOk off size then .next (s.hostWrite (regAt off) v) else .refused .windowAccess
  | .rd off size => if windowAccessOk off size then .next (s.hostRead (regAt off)) else .refused .windowAccess
  | .wait =>
    if statusDone (s.readReg .status) then .next (s.hostRead .status)
    else .next { s.hostRead .status with hostOps := .wait :: s.hostOps }
  | .waitIrq => if s.irq then .next s else .next { s with hostOps := .waitIrq :: s.hostOps }
  | .store a b => s.hostStore a b
  | .load a => s.hostLoad a
  | .assertReset => .next s.assertReset

/-- The host's move: its next operation; nothing when it has none (70_reset_and_hazards.md R255). -/
def State.hostMove (s : State) : StepOutcome :=
  match s.hostOps with
  | [] => .next s
  | op :: rest => { s with hostOps := rest }.hostOperation op

/-- `cmd MNEMONIC` (30_encoding.md R76). -/
def HostOp.cmd (i : Instr) : HostOp := .wr 0x000 .word (encode i)

/-- `run MNEMONIC` (30_encoding.md R77). -/
def HostOp.run (i : Instr) : List HostOp := [HostOp.cmd i, .wait]

/-- `ack` (30_encoding.md R77). -/
def HostOp.ack : HostOp := .wr 0x004 .word 0x00000002

/-- `wr64 NAME, v64`, `lo` being the offset of NAME_LO (30_encoding.md R77). -/
def HostOp.wr64 (lo : Offset) (v : DWord) : List HostOp :=
  [.wr lo .word (loHalf v), .wr (lo + 4) .word (hiHalf v)]

/-- `update a, l` (30_encoding.md R77). -/
def HostOp.update (a : Addr) (l : DWord) : List HostOp :=
  HostOp.wr64 0x010 a ++ HostOp.wr64 0x018 l ++ HostOp.run .update

/-- `final d` (30_encoding.md R77). -/
def HostOp.final (d : Addr) : List HostOp := HostOp.wr64 0x030 d ++ HostOp.run .final

/-- `hash a, l, d` (30_encoding.md R77). -/
def HostOp.hash (a : Addr) (l : DWord) (d : Addr) : List HostOp :=
  HostOp.wr64 0x010 a ++ HostOp.wr64 0x018 l ++ HostOp.wr64 0x030 d ++ HostOp.run .hash

/-- `setkey a, l` (30_encoding.md R77). -/
def HostOp.setkey (a : Addr) (l : DWord) : List HostOp :=
  HostOp.wr64 0x010 a ++ HostOp.wr64 0x018 l ++ HostOp.run .hmacKey

/-- `mac a, l, d` (30_encoding.md R77). -/
def HostOp.mac (a : Addr) (l : DWord) (d : Addr) : List HostOp :=
  HostOp.wr64 0x010 a ++ HostOp.wr64 0x018 l ++ HostOp.wr64 0x030 d ++ HostOp.run .hmacMac

/-- `hmac ka, kl, ma, ml, d` (30_encoding.md R77). -/
def HostOp.hmac (ka : Addr) (kl : DWord) (ma : Addr) (ml : DWord) (d : Addr) : List HostOp :=
  HostOp.setkey ka kl ++ HostOp.mac ma ml d

/-- `derive pa, pl, sa, sl, it, d, n` (30_encoding.md R77). -/
def HostOp.derive (pa : Addr) (pl : DWord) (sa : Addr) (sl : DWord) (it : Word) (d : Addr) (n : DWord) : List HostOp :=
  HostOp.wr64 0x010 pa ++ HostOp.wr64 0x018 pl ++ HostOp.wr64 0x020 sa ++ HostOp.wr64 0x028 sl ++
    [.wr 0x040 .word it] ++ HostOp.wr64 0x030 d ++ HostOp.wr64 0x038 n ++ HostOp.run .kdf

end Sys2Proof.Machine
end

