-- ==== Sys2Proof/Machine/Step.lean ====
section
/-!
DEFINITION. One step: the agent whose turn it is moves (00_scope.md R17). The engine's move is one command (40_dispatch.md
R92, R93); the host's move is one operation.
-/
namespace Sys2Proof.Machine

/-- The engine's move (40_dispatch.md R92, R93): nothing while idle; the latched command in one step; an illegal word
completes with ILLEGAL_COMMAND. -/
def State.engineMove (s : State) : StepOutcome :=
  if s.busy then
    match s.currentCommand with
    | .ok i => exec i s
    | .error _ => s.raise .illegalCommand
  else .next s

/-- One step of the machine. -/
def step (s : State) : Host.Outcome State Fault Refusal :=
  match s.turn with
  | (.engine, s') => s'.engineMove
  | (.host, s') => s'.hostMove

/-- `s` with the instruction of the `nbits` low bits of `w` where the engine takes its next command from: latched
by acceptance (40_dispatch.md R90), the next turn being the engine's (log entry 8). -/
def State.withFetchWord (s : State) (nbits w : Nat) : State :=
  { s.accept (BitVec.ofNat 32 (w % 2 ^ nbits)) with sched := .engine :: s.sched }

end Sys2Proof.Machine
end

