-- ==== Sys2Proof/Machine/Run.lean ====
section
/-!
DEFINITION. A host program's launch and the end of its run (70_reset_and_hazards.md R244, R255).
-/
namespace Sys2Proof.Machine

/-- What a host program states of its start (70_reset_and_hazards.md R244): its operations, the two contexts, the bytes its
input regions hold and the regions it names. -/
structure Launch where
  ops : List HostOp
  stream : Stream
  phase : Phase
  /-- The key block, if a key is set. -/
  key : Option (List Byte)
  /-- Where the input bytes stand, and what they are. -/
  inputs : List (Addr × List Byte)
  regions : List Region
deriving DecidableEq, Repr

/-- The key context (10_state.md R20): the key block, if a key is set. -/
def State.keyContext (s : State) : Option (List Byte) := if s.kvalid then some s.key else none

/-- The run has ended: the host has issued its last operation and no command runs (70_reset_and_hazards.md R255). -/
def State.ended (s : State) : Bool := s.hostOps.isEmpty && !s.busy

/-- The registers of 10_state.md R25, by rising offset. -/
def windowRegs : List Reg :=
  [.cmd, .status, .ctrl, .srcAddrLo, .srcAddrHi, .srcLenLo, .srcLenHi, .auxAddrLo, .auxAddrHi, .auxLenLo, .auxLenHi] ++
  [.dstAddrLo, .dstAddrHi, .outLenLo, .outLenHi, .iter, .bitcntLo, .bitcntHi] ++
  [.h 0, .h 1, .h 2, .h 3, .h 4, .h 5, .h 6, .h 7]

/-- What is observed at the end of a run (70_reset_and_hazards.md R255). -/
structure Observation where
  mem : Memory
  regs : List Word
deriving DecidableEq, Repr

/-- The system memory and the values of the registers of 10_state.md R25 with BUSY = 0 (70_reset_and_hazards.md R255). What the
host read on the way, the turns taken and the draw counter are no part of it. -/
def State.observe (s : State) : Observation := ⟨s.mem, windowRegs.map s.idleRead⟩

/-- The observation of a run, once it has ended (70_reset_and_hazards.md R255). -/
def State.endOfRun (s : State) : Option Observation := if s.ended then some s.observe else none

/-- A run from `s` ends in `t`, after any number of steps (70_reset_and_hazards.md R255). -/
def RunEnds (s t : State) : Prop := ∃ k : Nat, Sys2Proof.core.run k s = .next t ∧ t.ended = true

end Sys2Proof.Machine
end

