-- ==== Sys2Proof/Safety.lean ====
section
/-!
DEFINITION. What counts as a legal state of the CORE and as a usable operand, and the spec's own second wording of some
functions, in the terms the statements use. Nothing here is part of the machine.
-/
namespace Sys2Proof.Machine

/-! ### Turns -/

/-- The engine moves next: a listed turn of its own, or no listed turn while a command runs. -/
def State.EngineMoves (s : State) : Prop := s.sched.head? = some .engine ∨ (s.sched = [] ∧ s.busy = true)

/-- The host moves next: a listed turn of its own, or no listed turn while no command runs. -/
def State.HostMoves (s : State) : Prop := s.sched.head? = some .host ∨ (s.sched = [] ∧ s.busy = false)

/-- The state with its next turn taken. -/
def State.turnTaken (s : State) : State := { s with sched := s.sched.tail }

/-- The state with its next turn and its next host operation taken. -/
def State.opTaken (s : State) : State := { s with sched := s.sched.tail, hostOps := s.hostOps.tail }

/-! ### Legal states -/

/-- The invariant: what the spec says of every state of the CORE (10_state.md R20, R23, R24; 40_dispatch.md R90;
42_streaming.md R143, R152; 93_implementation_defined.md U15) and the canonical form of the memory. -/
structure State.Inv (s : State) : Prop where
  /-- The memory is in canonical form. -/
  memWf : s.mem.wf = true
  /-- The pending buffer holds at most 63 bytes (R23). -/
  bufLen : s.buf.length ≤ 63
  /-- The bit counter counts whole bytes (R24). -/
  cntBytes : s.cnt.toNat % 8 = 0
  /-- While accumulating the buffer holds the bytes after the last complete block (R24, R143). -/
  bufCnt : s.phase = .accumulating → s.buf.length = (s.cnt.toNat / 8) % 64
  /-- After FINAL the buffer is empty (R152). -/
  bufFinal : s.phase = .finalized → s.buf = []
  /-- The key block has 64 bytes (R20). -/
  keyLen : s.key.length = 64
  /-- No reserved error code is produced (R210, U15). -/
  errCode : s.err.toNat ≤ 7
  /-- While a command runs DONE and ERR_CODE are clear and the snapshot is the parameters (R31, R90). -/
  running : s.busy = true → s.done = false ∧ s.err = 0 ∧ s.snap = s.params
  /-- While no command runs no byte is raced. -/
  idle : s.busy = false → s.races = []

/-! ### Regions and bytes -/

/-- The region is well-formed, every byte of it exists, and none is a device's (20_memory.md R52, R53, R60). -/
def State.Usable (s : State) (r : Region) : Prop :=
  r.base.toNat + r.len.toNat ≤ 2 ^ 64 ∧
  (∀ a : Addr, r.covers a = true → s.mappedAddr a = true) ∧
  (∀ a : Addr, r.covers a = true → s.deviceAddr a = false)

/-- `[ f(a), f(a+1), ..., f(a+n-1) ]` (20_memory.md R55). -/
def byteRange (f : Addr → Byte) (a : Addr) (n : Nat) : List Byte :=
  (List.range n).map fun i => f (a + BitVec.ofNat 64 i)

/-- The bytes the engine reads from the source region. -/
def State.srcBytes (s : State) : List Byte := byteRange (s.inputByte 0) s.snap.srcAddr s.snap.srcLen.toNat

/-- The bytes the engine reads from the auxiliary region. -/
def State.auxBytes (s : State) : List Byte := byteRange (s.inputByte 1) s.snap.auxAddr s.snap.auxLen.toNat

/-- `m` is the memory of `s` after `v` was written to the region `r` (20_memory.md R55): each byte of the region that the host
did not race holds its byte of `v`; every byte outside the region, and every raced one, is as it was. -/
def State.Stored (s : State) (r : Region) (v : List Byte) (m : Memory) : Prop :=
  v.length = r.len.toNat ∧
  (∀ i, i < v.length → r.base + BitVec.ofNat 64 i ∉ s.races → m.read (r.base + BitVec.ofNat 64 i) = v.getD i 0) ∧
  (∀ a : Addr, (r.covers a = false ∨ a ∈ s.races) → m.read a = s.mem.read a)

/-- Every region of a command (30_encoding.md R75). -/
def Instr.regions (i : Instr) (p : Params) : List Region := Instr.inputRegions i p ++ (Instr.outputRegion i p).toList

/-! ### The register window -/

/-- The offsets of CMD, of the parameter registers and of H0..H7 (10_state.md R25). -/
def guardedOffsets : List Offset :=
  [0x000, 0x010, 0x014, 0x018, 0x01C, 0x020, 0x024, 0x028, 0x02C, 0x030, 0x034, 0x038, 0x03C, 0x040] ++
  [0x060, 0x064, 0x068, 0x06C, 0x070, 0x074, 0x078, 0x07C]

/-! ### Launching a host program -/

/-- The clean-entry record (70_reset_and_hazards.md R244): the premise under which a host program is launched. -/
structure State.CleanEntry (s : State) (l : Launch) : Prop where
  /-- `S.busy = 0`. -/
  idle : s.busy = false
  /-- The streaming context is the one the program states. -/
  streaming : s.stream = l.stream ∧ s.phase = l.phase
  /-- The key context is the one the program states. -/
  keyed : s.keyContext = l.key
  /-- No write is pending: every write lands in the step that makes it, so this says that the host has no operation to come but
  the program's. -/
  noWritePending : s.hostOps = l.ops
  /-- The input regions hold the stated bytes. -/
  inputBytes : ∀ d ∈ l.inputs, byteRange s.mem.read d.1 d.2.length = d.2
  /-- `MAPPED` holds on every region the program names. -/
  mapped : ∀ r ∈ l.regions, s.mapped r = true

/-! ### The checks, in the order of 60_exceptions.md R213 -/

/-- Check 2: the phase does not allow the command (60_exceptions.md R217). -/
def Instr.phaseFails (i : Instr) (s : State) : Prop := (i = .update ∨ i = .final) ∧ s.phase = .finalized

/-- Check 3: HMAC_MAC without a key (60_exceptions.md R218). -/
def Instr.keyFails (i : Instr) (s : State) : Prop := i = .hmacMac ∧ s.kvalid = false

/-- Check 4: a malformed region, COMPRESS with a length other than 64, or an output that overlaps an input
(60_exceptions.md R211). -/
def Instr.argumentFails (i : Instr) (s : State) : Prop :=
  (∃ r ∈ Instr.regions i s.snap, 2 ^ 64 < r.base.toNat + r.len.toNat) ∨
  (i = .compress ∧ s.snap.srcLen.toNat ≠ 64) ∨
  (∃ o, Instr.outputRegion i s.snap = some o ∧ ∃ r ∈ Instr.inputRegions i s.snap, o.overlaps r = true)

/-- Check 5: a derived key that is too long (60_exceptions.md R215). -/
def Instr.requestFails (i : Instr) (s : State) : Prop := i = .kdf ∧ 137438953440 < s.snap.outLen.toNat

/-- Check 6: a digest input that is too long (60_exceptions.md R214). -/
def Instr.lengthFails (i : Instr) (s : State) : Prop :=
  match i with
  | .nop => False
  | .init => False
  | .update => 2 ^ 61 - 1 < s.cnt.toNat / 8 + s.snap.srcLen.toNat
  | .final => False
  | .compress => False
  | .hash => 2 ^ 61 - 1 < s.snap.srcLen.toNat
  | .hmacKey => 2 ^ 61 - 1 < s.snap.srcLen.toNat
  | .hmacMac => 2 ^ 61 - 1 - 64 < s.snap.srcLen.toNat
  | .kdf => 2 ^ 61 - 1 < s.snap.srcLen.toNat ∨ 2 ^ 61 - 1 - 68 < s.snap.auxLen.toNat

/-- Check 7: a byte of a region does not exist (60_exceptions.md R219). -/
def Instr.mappingFails (i : Instr) (s : State) : Prop :=
  ∃ r ∈ Instr.regions i s.snap, ∃ a : Addr, r.covers a = true ∧ s.mappedAddr a = false

/-- A region of the command names a device (20_memory.md R60). -/
def Instr.deviceNamed (i : Instr) (s : State) : Prop :=
  ∃ r ∈ Instr.regions i s.snap, ∃ a : Addr, r.covers a = true ∧ s.deviceAddr a = true

/-- `e` is the code of the first check that fails (60_exceptions.md R213). A command that decodes is legal, so check 1 passes. -/
def Instr.FirstFailure (i : Instr) (s : State) (e : ErrorCode) : Prop :=
  match e with
  | .illegalCommand => False
  | .sequenceError => Instr.phaseFails i s
  | .keyNotSet => ¬ Instr.phaseFails i s ∧ Instr.keyFails i s
  | .invalidArgument => ¬ Instr.phaseFails i s ∧ ¬ Instr.keyFails i s ∧ Instr.argumentFails i s
  | .requestTooLarge =>
    ¬ Instr.phaseFails i s ∧ ¬ Instr.keyFails i s ∧ ¬ Instr.argumentFails i s ∧ Instr.requestFails i s
  | .unsupportedLength =>
    ¬ Instr.phaseFails i s ∧ ¬ Instr.keyFails i s ∧ ¬ Instr.argumentFails i s ∧ ¬ Instr.requestFails i s ∧
    Instr.lengthFails i s
  | .unmapped =>
    ¬ Instr.phaseFails i s ∧ ¬ Instr.keyFails i s ∧ ¬ Instr.argumentFails i s ∧ ¬ Instr.requestFails i s ∧
    ¬ Instr.lengthFails i s ∧ Instr.mappingFails i s

/-- No check fails. -/
def Instr.Passes (i : Instr) (s : State) : Prop :=
  ¬ Instr.phaseFails i s ∧ ¬ Instr.keyFails i s ∧ ¬ Instr.argumentFails i s ∧ ¬ Instr.requestFails i s ∧
  ¬ Instr.lengthFails i s ∧ ¬ Instr.mappingFails i s

/-! ### Several commands -/

/-- UPDATEs run one after another, each with its own parameter snapshot; the first that gives no next state ends the list. -/
def execUpdates : List Params → State → StepOutcome
  | [], s => .next s
  | p :: ps, s =>
    match exec .update { s with snap := p } with
    | .next t => execUpdates ps t
    | .fault f => .fault f
    | .refused r => .refused r

/-! ### The functions in the spec's second wording -/

/-- The first `n` blocks of 64 bytes. -/
def firstBlocks (n : Nat) (b : List Byte) : List (List Byte) :=
  (List.range n).map fun i => (b.drop (64 * i)).take 64

/-- Blocks compressed one after another. -/
def compressBlocks (h : HashState) (bs : List (List Byte)) : HashState := bs.foldl compressBlock h

/-- The least number of zero bytes `k` with (L + 1 + k) mod 64 = 56 (42_streaming.md R147). -/
def padZeros (len : Nat) : Nat := (119 - len % 64) % 64

/-- `b || 0x80 || zeros(k) || BE64(cnt)` (42_streaming.md R147). -/
def padded (b : List Byte) (cnt : DWord) : List Byte := b ++ [0x80] ++ zeros (padZeros b.length) ++ be64 cnt

/-- `U` number `j + 1` of block `n` (44_kdf.md R191, R192). -/
def kdfValue (p salt : List Byte) (n : Nat) : Nat → List Byte
  | 0 => hmac p (salt ++ be32 (BitVec.ofNat 32 n))
  | j + 1 => hmac p (kdfValue p salt n j)

/-- Block `n`: the XOR of U1 to Uc (44_kdf.md R192). -/
def kdfXor (p salt : List Byte) (c n : Nat) : List Byte :=
  ((List.range (c - 1)).map fun j => kdfValue p salt n (j + 1)).foldl xorBytes (kdfValue p salt n 0)

end Sys2Proof.Machine
end

