-- ==== Sys2Proof/Certificates/Slice0/Obligations.lean ====
section
/-!
DEFINITION. The statements for the provers, taken from the numbered rules of spec/. Each docstring names the rules.
-/
open Sys2Proof Sys2Proof.Machine

/-! ### Encoding -/

/-- R72: the nine words of the opcode map, written out, decode to their commands; E-1 to E-6 of 95_test_vectors.md do not. -/
def Obligations.CommandWordsDecode : Prop :=
  decode 0x00000000 = .ok .nop ∧ decode 0x00000001 = .ok .init ∧ decode 0x00000002 = .ok .update ∧
  decode 0x00000003 = .ok .final ∧ decode 0x00000004 = .ok .compress ∧ decode 0x00000005 = .ok .hash ∧
  decode 0x00000006 = .ok .hmacKey ∧ decode 0x00000007 = .ok .hmacMac ∧ decode 0x00000008 = .ok .kdf ∧
  decode 0x00000009 = .error .unknownOpcode ∧ decode 0x000000FF = .error .unknownOpcode ∧
  decode 0x00000100 = .error .reservedBits ∧ decode 0x00000108 = .error .reservedBits ∧
  decode 0x80000002 = .error .reservedBits ∧ decode 0xFFFFFFFF = .error .reservedBits

/-- R70 to R72: decoding an encoded well-formed command gives it back, and every word that decodes is the encoding of
what it decodes to. -/
def Obligations.DecodeEncodeAgree : Prop :=
  (∀ i : Instr, i.wellFormed = true → decode (encode i) = .ok i) ∧
  (∀ (w : Word) (i : Instr), decode w = .ok i → i.wellFormed = true ∧ w = encode i)

/-- R73, R216: the words outside the opcode map are exactly those with an OPCODE in 0x09..0xFF or a nonzero bit in 31:8;
written while idle such a word is accepted, and the engine's move ends it with ILLEGAL_COMMAND (0x04) and changes
nothing else. -/
def Obligations.IllegalWordsComplete : Prop :=
  (∀ w : Word, (∃ e, decode w = .error e) ↔ (0x09 ≤ w.toNat % 256 ∨ w.toNat / 256 ≠ 0)) ∧
  (∀ (s : State) (w : Word), s.busy = false → (0x09 ≤ w.toNat % 256 ∨ w.toNat / 256 ≠ 0) →
    s.hostWrite .cmd w = s.accept w ∧
    (s.accept w).engineMove = .next { s with
      cmd := w, snap := s.params, busy := false, done := true, err := 0x04, races := [], draws := s.draws + 1 })

/-! ### Steps and turns -/

/-- R92, R93: when the engine moves, a command runs and its word decodes to a well-formed command, the step is exec of
that command on the state with the turn taken. -/
def Obligations.StepRunsDecodedCommand : Prop :=
  ∀ (s : State) (i : Instr), s.EngineMoves → s.busy = true → decode s.cmd = .ok i → i.wellFormed = true →
    step s = exec i s.turnTaken

/-- R17, R76, R231, R255: when the host moves and has an operation, the step is that operation on the state with the turn and the
operation taken; a host's turn without an operation, and an engine's turn while no command runs, change nothing but that the
turn is taken. -/
def Obligations.StepRunsHostOperation : Prop :=
  (∀ (s : State) (op : HostOp) (rest : List HostOp), s.HostMoves → s.hostOps = op :: rest →
    step s = s.opTaken.hostOperation op) ∧
  (∀ s : State, ((s.EngineMoves ∧ s.busy = false) ∨ (s.HostMoves ∧ s.hostOps = [])) → step s = .next s.turnTaken)

/-! ### Reset and the invariant -/

/-- R38: the reset values the spec gives, and the interrupt output deasserted. -/
def Obligations.ResetValues : Prop :=
  State.reset.hstate = ⟨0x6a09e667, 0xbb67ae85, 0x3c6ef372, 0xa54ff53a, 0x510e527f, 0x9b05688c, 0x1f83d9ab, 0x5be0cd19⟩ ∧
  State.reset.buf = [] ∧ State.reset.cnt = 0 ∧ State.reset.phase = .accumulating ∧ State.reset.kvalid = false ∧
  State.reset.busy = false ∧ State.reset.done = false ∧ State.reset.werr = false ∧ State.reset.err = 0 ∧
  State.reset.ie = false ∧ State.reset.params = ⟨0, 0, 0, 0, 0, 0, 0⟩ ∧ State.reset.irq = false

/-- R20, R23, R24: the reset state meets the invariant. -/
def Obligations.ResetStateMeetsInvariant : Prop := State.reset.Inv

/-- R20, R23, R24, R90, R143, R152, R210: every step from a state that meets the invariant gives a state that meets it. -/
def Obligations.StepKeepsInvariant : Prop :=
  ∀ s t : State, s.Inv → step s = .next t → t.Inv

/-- R240, R241: asserting reset puts every component of S at its reset value. It changes no byte of system memory while idle;
while a command runs it changes none outside that command's output region, each existing byte of which holds a
free value (log entry 13, the model's choice of the free value's form). That this holds also of a command whose region names a
device, abandoned before its checks, is the model's choice (log entry 28). -/
def Obligations.ResetInput : Prop :=
  ∀ (s : State) (rest : List HostOp), s.HostMoves → s.hostOps = .assertReset :: rest →
    ∃ m : Memory,
      step s = .next { State.reset with
        mem := m, map := s.map, hostOps := rest, sched := s.sched.tail,
        rdata := s.rdata, mdata := s.mdata, draws := s.draws + 1 } ∧
      (s.busy = false → m = s.mem) ∧
      (s.mem.wf = true → ∀ a : Addr,
        m.read a = if s.ownedOutput a then Config.abandonedByte s.draws a else s.mem.read a)

/-! ### The register window -/

/-- R90, R91: every write to CMD while idle is accepted, whatever the word: the word and all parameters are latched, BUSY is
set, DONE and ERR_CODE are cleared and so is the interrupt output; WERR is unchanged. -/
def Obligations.CmdWriteIsAccepted : Prop :=
  ∀ (s : State) (w : Word) (rest : List HostOp), s.HostMoves → s.busy = false →
    s.hostOps = .wr 0x000 .word w :: rest →
    ∃ t, step s = .next t ∧
      t = { s.opTaken with
        cmd := w, snap := s.params, busy := true, done := false, err := 0, races := [], draws := s.draws + 1 } ∧
      t.irq = false ∧ t.werr = s.werr

/-- R31: a write while a command runs to CMD, a parameter register or H0..H7 changes no register, starts no command and
sets WERR; writes to CTRL and writes of 1 to STATUS.WERR act as while idle. -/
def Obligations.WritesWhileBusyAreDropped : Prop :=
  ∀ (s : State) (off : Offset) (v : Word) (rest : List HostOp), s.HostMoves → s.busy = true →
    s.hostOps = .wr off .word v :: rest →
    (off ∈ guardedOffsets → step s = .next { s.opTaken with werr := true }) ∧
    (off = 0x008 → step s = .next { s.opTaken with ie := v.getLsbD 0 }) ∧
    (off = 0x004 → ∃ t, step s = .next t ∧ (v.getLsbD 2 = true → t.werr = false) ∧
      (v.getLsbD 2 = false → t.werr = s.werr) ∧ t.busy = true)

/-- R33: CMD and the reserved offsets read 0; writes to reserved offsets are ignored and do not set WERR; the reserved
bits of STATUS and CTRL read 0 and writes to them are ignored. -/
def Obligations.ReservedOffsetsAndBits : Prop :=
  ∀ (s : State) (off : Offset) (v : Word), off.toNat % 4 = 0 →
    s.readReg (regAt 0x000) = 0 ∧
    ((off = 0x00C ∨ (0x044 ≤ off.toNat ∧ off.toNat ≤ 0x04C) ∨ (0x058 ≤ off.toNat ∧ off.toNat ≤ 0x05C) ∨
        0x080 ≤ off.toNat) →
      s.readReg (regAt off) = 0 ∧ s.hostWrite (regAt off) v = s) ∧
    s.readReg (regAt 0x004) &&& 0xFF00C0E0 = 0 ∧
    s.readReg (regAt 0x008) &&& 0xFFFFFFFE = 0 ∧
    s.hostWrite (regAt 0x004) v = s.hostWrite (regAt 0x004) (v &&& 0x00FF3F1F) ∧
    s.hostWrite (regAt 0x008) v = s.hostWrite (regAt 0x008) (v &&& 0x00000001)

/-- R34: a window access that is not a naturally aligned 32-bit one is refused; an aligned 32-bit one is not. R78, R32: an aligned
read returns the register's value to the host and changes nothing else, but for the draw counter while a command runs (log
entry 10, the model's choice of the free value's form). -/
def Obligations.OnlyAlignedWordAccesses : Prop :=
  ∀ (s : State) (off : Offset) (size : AccessSize) (v : Word),
    ((size ≠ .word ∨ off.toNat % 4 ≠ 0) →
      s.hostOperation (.wr off size v) = .refused .windowAccess ∧
      s.hostOperation (.rd off size) = .refused .windowAccess) ∧
    ((size = .word ∧ off.toNat % 4 = 0) →
      s.hostOperation (.wr off size v) = .next (s.hostWrite (regAt off) v) ∧
      s.hostOperation (.rd off size) = .next (s.hostRead (regAt off)) ∧
      (s.busy = false → s.hostRead (regAt off) = { s with rdata := s.readReg (regAt off) }) ∧
      (s.busy = true →
        s.hostRead (regAt off) = { s with rdata := s.readReg (regAt off), draws := s.draws + 1 }))

/-- R27: the fields of STATUS while idle, its reserved bits, and what a write does: 1 clears DONE and WERR, 0 leaves them, and
the read-only fields ignore it. Reset leaves STATUS 0. -/
def Obligations.StatusWordFields : Prop :=
  (∀ s : State, s.busy = false →
    (s.readReg .status).getLsbD 0 = s.busy ∧ (s.readReg .status).getLsbD 1 = s.done ∧
    (s.readReg .status).getLsbD 2 = s.werr ∧
    ((s.readReg .status).getLsbD 3 = true ↔ s.phase = .finalized) ∧
    (s.readReg .status).getLsbD 4 = s.kvalid ∧
    (s.buf.length ≤ 63 → ((s.readReg .status).extractLsb' 8 6).toNat = s.buf.length) ∧
    (s.readReg .status).extractLsb' 16 8 = s.err ∧
    (s.readReg .status).extractLsb' 5 3 = 0 ∧ (s.readReg .status).extractLsb' 14 2 = 0 ∧
    (s.readReg .status).extractLsb' 24 8 = 0) ∧
  (∀ (s : State) (v : Word), ∃ d e : Bool,
    s.hostWrite .status v = { s with done := d, werr := e } ∧
    (v.getLsbD 1 = true → d = false) ∧ (v.getLsbD 1 = false → d = s.done) ∧
    (v.getLsbD 2 = true → e = false) ∧ (v.getLsbD 2 = false → e = s.werr)) ∧
  State.reset.readReg .status = 0

/-- R28: CTRL holds IE in bit 0, at any time; bits 31:1 read 0 and ignore writes; IE lets a set DONE drive the interrupt output;
IE is 0 after reset. -/
def Obligations.ControlWord : Prop :=
  (∀ (s : State) (v : Word), s.hostWrite .ctrl v = { s with ie := v.getLsbD 0 }) ∧
  (∀ s : State, (s.readReg .ctrl).toNat = s.ie.toNat) ∧
  (∀ s : State, s.ie = true → s.irq = s.done) ∧ (∀ s : State, s.ie = false → s.irq = false) ∧
  State.reset.readReg .ctrl = 0

/-- R32: what a read returns while a command runs. STATUS has BUSY 1, DONE 0, ERR_CODE 0 and the current WERR, and its PHASE,
KEY_VALID and BUF_LEN are those bits of a free word; parameter registers and CTRL read their values, CMD and reserved offsets 0;
H0..H7 and BITCNT read a free word, and the read moves the draw counter on (log entry 10, the model's choice of the free value's
form). -/
def Obligations.ReadsWhileBusy : Prop :=
  ∀ s : State, s.busy = true →
    (s.readReg .status).getLsbD 0 = true ∧ (s.readReg .status).getLsbD 1 = false ∧
    (s.readReg .status).getLsbD 2 = s.werr ∧ (s.readReg .status).extractLsb' 16 8 = 0 ∧
    (s.readReg .status).getLsbD 3 = (Config.freeWord s.draws).getLsbD 3 ∧
    (s.readReg .status).getLsbD 4 = (Config.freeWord s.draws).getLsbD 4 ∧
    (s.readReg .status).extractLsb' 8 6 = (Config.freeWord s.draws).extractLsb' 8 6 ∧
    (∀ r : Reg, r ∈ [Reg.ctrl, .srcAddrLo, .srcAddrHi, .srcLenLo, .srcLenHi, .auxAddrLo, .auxAddrHi, .auxLenLo,
        .auxLenHi, .dstAddrLo, .dstAddrHi, .outLenLo, .outLenHi, .iter, .cmd, .reserved] →
      s.readReg r = State.readReg { s with busy := false } r) ∧
    (∀ i : Fin 8, s.readReg (.h i) = Config.freeWord s.draws) ∧
    s.readReg .bitcntLo = Config.freeWord s.draws ∧ s.readReg .bitcntHi = Config.freeWord s.draws ∧
    (∀ r : Reg, (s.hostRead r).draws = s.draws + 1)

/-- R29: H0..H7 read the hash state; Hi holds the word that the digest serialises at bytes 4i..4i+3; a write while idle sets that
word and changes nothing else, in either phase. -/
def Obligations.HashRegisterAccess : Prop :=
  ∀ (s : State) (i : Fin 8) (v : Word), s.busy = false →
    s.readReg (regAt (0x060 + 4 * BitVec.ofNat 12 i.val)) = s.hstate.get i ∧
    ((digest s.hstate).drop (4 * i.val)).take 4 = be32 (s.hstate.get i) ∧
    ∃ h : HashState, s.hostWrite (regAt (0x060 + 4 * BitVec.ofNat 12 i.val)) v = { s with hstate := h } ∧
      h.get i = v ∧ ∀ j : Fin 8, j ≠ i → h.get j = s.hstate.get j

/-- R30: while idle BITCNT_LO and BITCNT_HI read the halves of the bit counter; writes to them are ignored at any time. -/
def Obligations.BitCounterRegisters : Prop :=
  (∀ s : State, s.busy = false →
    (s.readReg (regAt 0x050)).toNat = s.cnt.toNat % 2 ^ 32 ∧
    (s.readReg (regAt 0x054)).toNat = s.cnt.toNat / 2 ^ 32) ∧
  (∀ (s : State) (v : Word), s.hostWrite (regAt 0x050) v = s ∧ s.hostWrite (regAt 0x054) v = s)

/-- R25, R26, R74: each 64-bit parameter is `(NAME_HI << 32) | NAME_LO`; a write while idle of one half replaces that half and
keeps the other; ITER is one register. -/
def Obligations.ParameterHalves : Prop :=
  ∀ (s : State) (v : Word), s.busy = false →
    (s.params.srcAddr.toNat = (s.readReg (regAt 0x014)).toNat * 2 ^ 32 + (s.readReg (regAt 0x010)).toNat) ∧
    (s.params.srcLen.toNat = (s.readReg (regAt 0x01C)).toNat * 2 ^ 32 + (s.readReg (regAt 0x018)).toNat) ∧
    (s.params.auxAddr.toNat = (s.readReg (regAt 0x024)).toNat * 2 ^ 32 + (s.readReg (regAt 0x020)).toNat) ∧
    (s.params.auxLen.toNat = (s.readReg (regAt 0x02C)).toNat * 2 ^ 32 + (s.readReg (regAt 0x028)).toNat) ∧
    (s.params.dstAddr.toNat = (s.readReg (regAt 0x034)).toNat * 2 ^ 32 + (s.readReg (regAt 0x030)).toNat) ∧
    (s.params.outLen.toNat = (s.readReg (regAt 0x03C)).toNat * 2 ^ 32 + (s.readReg (regAt 0x038)).toNat) ∧
    s.params.iter = s.readReg (regAt 0x040) ∧
    (∀ off ∈ [(0x010 : Offset), 0x014, 0x018, 0x01C, 0x020, 0x024, 0x028, 0x02C, 0x030, 0x034, 0x038, 0x03C, 0x040],
      ∃ p : Params, s.hostWrite (regAt off) v = { s with params := p } ∧
        State.readReg { s with params := p } (regAt off) = v ∧
        ∀ off' : Offset, off'.toNat % 4 = 0 → off' ≠ off →
          State.readReg { s with params := p } (regAt off') = s.readReg (regAt off'))

/-- R220: IRQ is DONE AND IE, a level. Completion raises it when IE is 1, error or not; writing 1 to STATUS.DONE, accepting a
command and clearing CTRL.IE each lower it; and no other step lowers it, but for reset (R240). -/
def Obligations.InterruptLevel : Prop :=
  (∀ s : State, (s.irq = true ↔ s.done = true ∧ s.ie = true)) ∧
  (∀ (s : State) (code : BitVec 8), (s.complete code).irq = s.ie) ∧
  (∀ (s : State) (v : Word), v.getLsbD 1 = true → (s.hostWrite .status v).irq = false) ∧
  (∀ (s : State) (w : Word), s.busy = false → (s.hostWrite .cmd w).irq = false) ∧
  (∀ (s : State) (v : Word), v.getLsbD 0 = false → (s.hostWrite .ctrl v).irq = false) ∧
  (∀ s t : State, s.irq = true → step s = .next t →
    t.irq = true ∨
    (s.HostMoves ∧
      ((∃ v, s.hostOps.head? = some (.wr 0x004 .word v) ∧ v.getLsbD 1 = true) ∨
        (s.busy = false ∧ ∃ v, s.hostOps.head? = some (.wr 0x000 .word v)) ∨
        (∃ v, s.hostOps.head? = some (.wr 0x008 .word v) ∧ v.getLsbD 0 = false) ∨
        s.hostOps.head? = some .assertReset)))

/-- R35: what the host reads depends on the pending buffer only through its length and never on the key block. -/
def Obligations.BufferAndKeyNotReadable : Prop :=
  ∀ (s : State) (r : Reg) (b k : List Byte), b.length = s.buf.length →
    State.readReg { s with buf := b, key := k } r = s.readReg r

/-! ### The functional layer -/

/-- R111 to R114: the word functions, bit by bit where the rules say so, with the rules' examples. -/
def Obligations.WordFunctions : Prop :=
  (∀ (x y z : Word) (n : Nat), (ch x y z).getLsbD n = if x.getLsbD n then y.getLsbD n else z.getLsbD n) ∧
  (∀ (x y z : Word) (n : Nat), (maj x y z).getLsbD n =
    decide (2 ≤ (x.getLsbD n).toNat + (y.getLsbD n).toNat + (z.getLsbD n).toNat)) ∧
  (∀ (x y z : Word), ch x y z = (x &&& y) ^^^ (~~~x &&& z) ∧ maj x y z = (x &&& y) ^^^ (x &&& z) ^^^ (y &&& z)) ∧
  (∀ x : Word, bsig0 x = x.rotateRight 2 ^^^ x.rotateRight 13 ^^^ x.rotateRight 22 ∧
    bsig1 x = x.rotateRight 6 ^^^ x.rotateRight 11 ^^^ x.rotateRight 25 ∧
    ssig0 x = x.rotateRight 7 ^^^ x.rotateRight 18 ^^^ (x >>> 3) ∧
    ssig1 x = x.rotateRight 17 ^^^ x.rotateRight 19 ^^^ (x >>> 10)) ∧
  ch 0x510e527f 0x9b05688c 0x1f83d9ab = 0x1f85c98c ∧ maj 0x6a09e667 0xbb67ae85 0x3c6ef372 = 0x3a6fe667 ∧
  bsig0 0x6a09e667 = 0xce20b47e ∧ bsig1 0x510e527f = 0x3587272b ∧
  ssig0 0x00000001 = 0x02004000 ∧ ssig1 0x00000001 = 0x0000a000 ∧
  ssig0 0xffffffff = 0x1fffffff ∧ ssig1 0xffffffff = 0x003fffff

/-- R117, R118: the schedule of a 64-byte block has 64 words; the first 16 are its bytes, four each, most significant first; each
later one is given by the recurrence. -/
def Obligations.ScheduleRecurrence : Prop :=
  ∀ b : List Byte, b.length = 64 →
    (schedule b).length = 64 ∧
    (∀ t, t < 16 → ((schedule b).getD t 0).toNat =
      (b.getD (4 * t) 0).toNat * 2 ^ 24 + (b.getD (4 * t + 1) 0).toNat * 2 ^ 16 +
      (b.getD (4 * t + 2) 0).toNat * 2 ^ 8 + (b.getD (4 * t + 3) 0).toNat) ∧
    (∀ t, 16 ≤ t → t < 64 → (schedule b).getD t 0 =
      ssig1 ((schedule b).getD (t - 2) 0) + (schedule b).getD (t - 7) 0 +
      ssig0 ((schedule b).getD (t - 15) 0) + (schedule b).getD (t - 16) 0)

/-- R119 to R122: Compress loads the working registers from H, runs round t with K[t] and W[t] for t from 0 to 63, each assignment
using the values from before the round, and adds the registers into H. K is the table of R115, written out. -/
def Obligations.CompressIsSixtyFourRounds : Prop :=
  roundConstants =
    [0x428a2f98, 0x71374491, 0xb5c0fbcf, 0xe9b5dba5, 0x3956c25b, 0x59f111f1, 0x923f82a4, 0xab1c5ed5] ++
    [0xd807aa98, 0x12835b01, 0x243185be, 0x550c7dc3, 0x72be5d74, 0x80deb1fe, 0x9bdc06a7, 0xc19bf174] ++
    [0xe49b69c1, 0xefbe4786, 0x0fc19dc6, 0x240ca1cc, 0x2de92c6f, 0x4a7484aa, 0x5cb0a9dc, 0x76f988da] ++
    [0x983e5152, 0xa831c66d, 0xb00327c8, 0xbf597fc7, 0xc6e00bf3, 0xd5a79147, 0x06ca6351, 0x14292967] ++
    [0x27b70a85, 0x2e1b2138, 0x4d2c6dfc, 0x53380d13, 0x650a7354, 0x766a0abb, 0x81c2c92e, 0x92722c85] ++
    [0xa2bfe8a1, 0xa81a664b, 0xc24b8b70, 0xc76c51a3, 0xd192e819, 0xd6990624, 0xf40e3585, 0x106aa070] ++
    [0x19a4c116, 0x1e376c08, 0x2748774c, 0x34b0bcb5, 0x391c0cb3, 0x4ed8aa4a, 0x5b9cca4f, 0x682e6ff3] ++
    [0x748f82ee, 0x78a5636f, 0x84c87814, 0x8cc70208, 0x90befffa, 0xa4506ceb, 0xbef9a3f7, 0xc67178f2] ∧
  (∀ (r : WorkRegs) (k w : Word), hashRound r k w =
    { h := r.g, g := r.f, f := r.e, e := r.d + (r.h + bsig1 r.e + ch r.e r.f r.g + k + w),
      d := r.c, c := r.b, b := r.a,
      a := (r.h + bsig1 r.e + ch r.e r.f r.g + k + w) + (bsig0 r.a + maj r.a r.b r.c) }) ∧
  (∀ (h : HashState) (b : List Byte), b.length = 64 →
    ∃ r : WorkRegs,
      r = (List.range 64).foldl (fun r t => hashRound r (roundConstants.getD t 0) ((schedule b).getD t 0))
        ⟨h.h0, h.h1, h.h2, h.h3, h.h4, h.h5, h.h6, h.h7⟩ ∧
      compressBlock h b =
        ⟨h.h0 + r.a, h.h1 + r.b, h.h2 + r.c, h.h3 + r.d, h.h4 + r.e, h.h5 + r.f, h.h6 + r.g, h.h7 + r.h⟩)

/-- R142: absorbing two pieces one after the other is absorbing their concatenation. -/
def Obligations.AbsorbIsChunkingInvariant : Prop :=
  ∀ (c : Stream) (a b : List Byte), absorb (absorb c a) b = absorb c (a ++ b)

/-- R143: Absorb compresses exactly the floor((len(buf) + len(D)) / 64) complete blocks of `buf || D`, in order, and the buffer
holds the last (len(buf) + len(D)) mod 64 bytes of `buf || D`; an empty D changes nothing. -/
def Obligations.AbsorbCompressesFullBlocks : Prop :=
  (∀ (c : Stream) (d : List Byte), c.buf.length ≤ 63 →
    (absorb c d).h = compressBlocks c.h (firstBlocks ((c.buf.length + d.length) / 64) (c.buf ++ d)) ∧
    (absorb c d).buf.length = (c.buf.length + d.length) % 64 ∧
    (absorb c d).buf = (c.buf ++ d).drop (c.buf.length + d.length - (c.buf.length + d.length) % 64)) ∧
  (∀ c : Stream, absorb c [] = c)

/-- R145: Finish compresses one block when the buffer holds at most 55 bytes and two when it holds 56 to 63; no zero byte stands
before the length at 55, none after the 0x80 byte in the first block at 63; the length appended is `cnt`. -/
def Obligations.FinishPadsOneOrTwoBlocks : Prop :=
  ∀ c : Stream,
    (c.buf.length ≤ 55 →
      finish c = compressBlock c.h (c.buf ++ [0x80] ++ zeros (55 - c.buf.length) ++ be64 c.cnt) ∧
      (c.buf ++ [0x80] ++ zeros (55 - c.buf.length) ++ be64 c.cnt).length = 64) ∧
    (56 ≤ c.buf.length ∧ c.buf.length ≤ 63 →
      finish c = compressBlock (compressBlock c.h (c.buf ++ [0x80] ++ zeros (63 - c.buf.length)))
        (zeros 56 ++ be64 c.cnt) ∧
      (c.buf ++ [0x80] ++ zeros (63 - c.buf.length)).length = 64 ∧ (zeros 56 ++ be64 c.cnt).length = 64)

/-- R147: the digest is that of the padded message `m || 0x80 || zeros(k) || BE64(8L)`, k least with (L + 1 + k) mod 64 = 56,
whose length is a multiple of 64, compressed block by block from IV. -/
def Obligations.Sha256OfPaddedMessage : Prop :=
  ∀ (m : List Byte) (k : Nat), (m.length + 1 + k) % 64 = 56 → (∀ j, j < k → (m.length + 1 + j) % 64 ≠ 56) →
    ∃ p : List Byte, p = m ++ [0x80] ++ zeros k ++ be64 (BitVec.ofNat 64 (8 * m.length)) ∧
      p.length % 64 = 0 ∧ sha256 m = digest (compressBlocks iv (firstBlocks (p.length / 64) p))

/-- R148: byte 4i + j of the digest is bits 31-8j : 24-8j of H[i]; the digest has 32 bytes. -/
def Obligations.DigestBytes : Prop :=
  ∀ h : HashState, (digest h).length = 32 ∧
    ∀ (i : Fin 8) (j : Nat), j < 4 →
      ((digest h).getD (4 * i.val + j) 0).toNat = (h.get i).toNat / 2 ^ (24 - 8 * j) % 2 ^ 8

/-- R150, R151, R152, R142, R149: INIT, then any number of UPDATEs (none included), then FINAL write the digest of the
concatenated source bytes, however the message is cut into pieces; this is what HASH writes for it (R153). The commands are composed
by exec alone, each from the state the one before left, with its own snapshot: that a meaning answers from a state in which
no command runs is the model's choice (log entry 20). -/
def Obligations.StreamingGivesSha256 : Prop :=
  ∀ (s : State) (ps : List Params) (q : Params), s.races = [] → s.mem.wf = true →
    (∀ p ∈ ps, s.Usable p.src) → s.Usable q.dst32 → (ps.map fun p => p.srcLen.toNat).sum ≤ 2 ^ 61 - 1 →
    ∃ t u v : State,
      exec .init s = .next t ∧ execUpdates ps t = .next u ∧ exec .final { u with snap := q } = .next v ∧
      v.err = 0 ∧ v.phase = .finalized ∧
      ∀ i, i < 32 → v.mem.read (q.dstAddr + BitVec.ofNat 64 i) =
        (sha256 (ps.flatMap fun p => byteRange s.mem.read p.srcAddr p.srcLen.toNat)).getD i 0

/-- R177: for a key longer than 64 bytes the MAC is that of the key's hash, and of that hash zero-extended to 64 bytes. -/
def Obligations.LongKeyEqualsItsHash : Prop :=
  ∀ k m : List Byte, k.length > 64 →
    hmac k m = hmac (sha256 k) m ∧ hmac k m = hmac (sha256 k ++ zeros 32) m ∧
    normKey k = sha256 k ++ zeros 32 ∧ normKey (sha256 k) = sha256 k ++ zeros 32

/-- R178: trailing zero bytes do not change a key of at most 64 bytes. -/
def Obligations.TrailingZerosOfKey : Prop :=
  ∀ (k m : List Byte) (j : Nat), k.length + j ≤ 64 →
    normKey (k ++ zeros j) = normKey k ∧ hmac (k ++ zeros j) m = hmac k m

/-- R191, R192, R193: the derived key is the first n bytes of blocks 1 to ceil(n / 32), each the XOR of U1 to Uc, U1 being the
MAC of `salt || BE32(n)` and each later U the MAC of the one before; each U and each block has 32 bytes. -/
def Obligations.KdfFoldsItsIterations : Prop :=
  ∀ (p salt : List Byte) (c : Word) (n : Nat),
    pbkdf p salt c n =
      ((List.range ((n + 31) / 32)).flatMap fun i => kdfXor p salt (max c.toNat 1) (i + 1)).take n ∧
    ∀ i j : Nat, (kdfValue p salt i j).length = 32 ∧ (kdfXor p salt (max c.toNat 1) i).length = 32

/-- R194: an iteration count of 0 is 1, for the function and for the command. -/
def Obligations.ZeroIterationsIsOne : Prop :=
  (∀ (p salt : List Byte) (n : Nat), pbkdf p salt 0 n = pbkdf p salt 1 n) ∧
  (∀ s t : State, s.snap.iter = 0 → exec .kdf s = .next t →
    exec .kdf { s with snap := { s.snap with iter := 1 } } = .next { t with snap := { t.snap with iter := 1 } })

/-- R199: the derived key has exactly n bytes, and shorter ones are prefixes of longer ones. -/
def Obligations.KdfLengthAndPrefix : Prop :=
  ∀ (p salt : List Byte) (c : Word) (n n' : Nat), n ≤ n' →
    (pbkdf p salt c n).length = n ∧ pbkdf p salt c n = (pbkdf p salt c n').take n

/-! ### Commands that complete -/

/-- R100: NOP succeeds and changes nothing, in either phase, with or without a key; from reset it leaves STATUS 0x00000002. -/
def Obligations.NopCompletes : Prop :=
  (∀ s : State, exec .nop s = .next { s with busy := false, done := true, err := 0, races := [] }) ∧
  (∃ t, exec .nop (State.reset.accept 0x00000000) = .next t ∧ t.readReg .status = 0x00000002)

/-- R150: INIT restores the streaming context, in either phase, and changes nothing else. -/
def Obligations.InitCompletes : Prop :=
  ∀ s : State, exec .init s = .next { s with
    hstate := ⟨0x6a09e667, 0xbb67ae85, 0x3c6ef372, 0xa54ff53a, 0x510e527f, 0x9b05688c, 0x1f83d9ab, 0x5be0cd19⟩,
    buf := [], cnt := 0, phase := .accumulating, busy := false, done := true, err := 0, races := [] }

/-- R151, R143: UPDATE compresses the complete blocks of buffer and source bytes, keeps the rest, counts 8 bits a byte without
wrapping, and changes nothing else. -/
def Obligations.UpdateCompletes : Prop :=
  ∀ s : State, s.phase = .accumulating → s.buf.length ≤ 63 → s.cnt.toNat % 8 = 0 → s.Usable s.snap.src →
    s.cnt.toNat / 8 + s.snap.srcLen.toNat ≤ 2 ^ 61 - 1 →
    ∃ (n : Nat) (c : DWord), n = (s.buf.length + s.snap.srcLen.toNat) / 64 ∧
      c.toNat = s.cnt.toNat + 8 * s.snap.srcLen.toNat ∧
      exec .update s = .next { s with
        hstate := compressBlocks s.hstate (firstBlocks n (s.buf ++ s.srcBytes)),
        buf := (s.buf ++ s.srcBytes).drop (64 * n), cnt := c,
        busy := false, done := true, err := 0, races := [] }

/-- R152, R144: FINAL compresses the padded buffer, one or two blocks, leaves the final state in H, writes its digest, empties
the buffer, keeps the counter, enters FINALIZED, and changes nothing else. A byte of the output region that the host wrote while
the command ran keeps the free value it holds (`State.Stored`): the model's choice, log entry 12. -/
def Obligations.FinalCompletes : Prop :=
  ∀ s : State, s.phase = .accumulating → s.buf.length ≤ 63 → s.Usable s.snap.dst32 → s.mem.wf = true →
    ∃ (h : HashState) (m : Memory),
      h = compressBlocks s.hstate (firstBlocks ((padded s.buf s.cnt).length / 64) (padded s.buf s.cnt)) ∧
      exec .final s = .next { s with
        hstate := h, buf := [], phase := .finalized, mem := m,
        busy := false, done := true, err := 0, races := [] } ∧
      s.Stored s.snap.dst32 (digest h) m

/-- R125: COMPRESS applies Compress once to H and the 64 source bytes, in either phase, and changes nothing else. -/
def Obligations.CompressCompletes : Prop :=
  ∀ s : State, s.snap.srcLen.toNat = 64 → s.Usable s.snap.src →
    exec .compress s = .next { s with
      hstate := compressBlock s.hstate s.srcBytes, busy := false, done := true, err := 0, races := [] }

/-- R153: HASH writes the digest of the source bytes and changes nothing else. A byte of the output region that the host wrote
while the command ran keeps the free value it holds (`State.Stored`): the model's choice, log entry 12. -/
def Obligations.HashCompletes : Prop :=
  ∀ s : State, s.Usable s.snap.src → s.Usable s.snap.dst32 → s.snap.dst32.overlaps s.snap.src = false →
    s.snap.srcLen.toNat ≤ 2 ^ 61 - 1 → s.mem.wf = true →
    ∃ m : Memory,
      exec .hash s = .next { s with mem := m, busy := false, done := true, err := 0, races := [] } ∧
      s.Stored s.snap.dst32 (sha256 s.srcBytes) m

/-- R180, R171: HMAC_KEY makes the normalised source bytes the key block, sets KEY_VALID, and changes nothing else. -/
def Obligations.HmacKeyCompletes : Prop :=
  ∀ s : State, s.Usable s.snap.src → s.snap.srcLen.toNat ≤ 2 ^ 61 - 1 →
    exec .hmacKey s = .next { s with
      key := if s.snap.srcLen.toNat > 64 then sha256 s.srcBytes ++ zeros 32
        else s.srcBytes ++ zeros (64 - s.snap.srcLen.toNat),
      kvalid := true, busy := false, done := true, err := 0, races := [] }

/-- R181, R172, R173: HMAC_MAC writes the MAC of the source bytes under the key block, and changes nothing else. A byte of the
output region that the host wrote while the command ran keeps the free value it holds (`State.Stored`): the model's choice, log
entry 12. -/
def Obligations.HmacMacCompletes : Prop :=
  ∀ s : State, s.kvalid = true → s.Usable s.snap.src → s.Usable s.snap.dst32 →
    s.snap.dst32.overlaps s.snap.src = false → s.snap.srcLen.toNat ≤ 2 ^ 61 - 1 - 64 → s.mem.wf = true →
    ∃ m : Memory,
      exec .hmacMac s = .next { s with mem := m, busy := false, done := true, err := 0, races := [] } ∧
      s.Stored s.snap.dst32
        (sha256 (xorBytes s.key (List.replicate 64 0x5C) ++
          sha256 (xorBytes s.key (List.replicate 64 0x36) ++ s.srcBytes))) m

/-- R195, R193: KDF writes OUT_LEN bytes derived from the password and the salt (none when OUT_LEN is 0), and changes nothing
else. A byte of the output region that the host wrote while the command ran keeps the free value it holds (`State.Stored`): the
model's choice, log entry 12. -/
def Obligations.KdfCompletes : Prop :=
  ∀ s : State, s.Usable s.snap.src → s.Usable s.snap.aux → s.Usable s.snap.dstOut →
    s.snap.dstOut.overlaps s.snap.src = false → s.snap.dstOut.overlaps s.snap.aux = false →
    s.snap.outLen.toNat ≤ 137438953440 → s.snap.srcLen.toNat ≤ 2 ^ 61 - 1 → s.snap.auxLen.toNat ≤ 2 ^ 61 - 1 - 68 →
    s.mem.wf = true →
    ∃ m : Memory,
      exec .kdf s = .next { s with mem := m, busy := false, done := true, err := 0, races := [] } ∧
      s.Stored s.snap.dstOut (pbkdf s.srcBytes s.auxBytes s.snap.iter s.snap.outLen.toNat) m ∧
      (s.snap.outLen = 0 → m = s.mem)

/-! ### Errors and completion -/

/-- R213, with R211, R214 to R219, R212 and R95: the legality of the word comes first; then the first check that fails, in the
fixed order, gives the command's one error code, and the command changes nothing else; when no check fails it completes with
`OK`. Regions that name a device are the next statement's. -/
def Obligations.ChecksInFixedOrder : Prop :=
  (∀ (s : State) (e : IllegalWord), s.busy = true → decode s.cmd = .error e →
    s.engineMove = .next (s.complete ErrorCode.illegalCommand.code)) ∧
  ∀ (i : Instr) (s : State), ¬ Instr.deviceNamed i s →
    (∀ e : ErrorCode, Instr.FirstFailure i s e → exec i s = .next (s.complete e.code)) ∧
    (Instr.Passes i s → ∃ t, exec i s = .next t ∧ t.err = 0)

/-- R60, U3 and log entry 15 (the model's choice that the checks come first): a command whose region names a device is refused by
name when no check fails, and else ends with the code of the first check that fails. -/
def Obligations.DeviceRegionsAreRefused : Prop :=
  ∀ (i : Instr) (s : State), Instr.deviceNamed i s →
    (Instr.Passes i s → exec i s = .refused .deviceRegion) ∧
    (∀ e : ErrorCode, Instr.FirstFailure i s e → exec i s = .next (s.complete e.code))

/-- R94, R61, R223: a command, legal or not, that ends with an error leaves everything as it was at acceptance but BUSY, DONE and
ERR_CODE; memory included. -/
def Obligations.ErrorChangesNothingElse : Prop :=
  ∀ (s t : State) (w : Word), (s.accept w).engineMove = .next t → t.err ≠ 0 →
    t = { s with
      busy := false, done := true, err := t.err, cmd := w, snap := s.params, races := [], draws := s.draws + 1 }

/-- R93, R91: a command that gives a next state has ended: BUSY 0, DONE 1, a code of the table, no byte raced any more, WERR
unchanged. -/
def Obligations.CompletionEndsTheCommand : Prop :=
  ∀ (i : Instr) (s t : State), exec i s = .next t →
    t.busy = false ∧ t.done = true ∧ t.err.toNat ≤ 7 ∧ t.err ≠ 0x04 ∧ t.races = [] ∧ t.werr = s.werr

/-- R99: no command writes a parameter register or CTRL. -/
def Obligations.CommandsKeepParameters : Prop :=
  ∀ (i : Instr) (s t : State), exec i s = .next t → t.params = s.params ∧ t.ie = s.ie

/-! ### Frames -/

/-- R36, R99, R150 to R153, R125, R180, R181, R195: what each command leaves unchanged of the registers and of the inputs still
to come. The streaming context is changed by INIT, UPDATE, FINAL and COMPRESS alone, and of it COMPRESS changes only H, UPDATE
not the phase, FINAL not the counter; the key context is changed by HMAC_KEY alone. -/
def Obligations.CommandFrame : Prop :=
  ∀ (i : Instr) (s t : State), exec i s = .next t →
    (t.params = s.params ∧ t.snap = s.snap ∧ t.cmd = s.cmd ∧ t.ie = s.ie ∧ t.werr = s.werr ∧ t.map = s.map ∧
      t.hostOps = s.hostOps ∧ t.sched = s.sched ∧ t.rdata = s.rdata ∧ t.mdata = s.mdata ∧ t.draws = s.draws) ∧
    (i ∉ [Instr.init, .update, .final, .compress] → t.hstate = s.hstate) ∧
    (i ∉ [Instr.init, .update, .final] → t.buf = s.buf) ∧
    (i ∉ [Instr.init, .update] → t.cnt = s.cnt) ∧
    (i ∉ [Instr.init, .final] → t.phase = s.phase) ∧
    (i ≠ .hmacKey → t.key = s.key ∧ t.kvalid = s.kvalid)

/-- R51, R75, R61: NOP, INIT, UPDATE, COMPRESS and HMAC_KEY leave every byte of memory; FINAL, HASH, HMAC_MAC and KDF leave
every byte outside their output region, and every byte when they end with an error. -/
def Obligations.MemoryFrame : Prop :=
  ∀ (i : Instr) (s t : State), s.mem.wf = true → exec i s = .next t →
    (i ∈ [Instr.nop, .init, .update, .compress, .hmacKey] → ∀ a : Addr, t.mem.read a = s.mem.read a) ∧
    (t.err ≠ 0 → ∀ a : Addr, t.mem.read a = s.mem.read a) ∧
    (i ∈ [Instr.final, .hash, .hmacMac] → ∀ a : Addr, s.snap.dst32.covers a = false → t.mem.read a = s.mem.read a) ∧
    (i = .kdf → ∀ a : Addr, s.snap.dstOut.covers a = false → t.mem.read a = s.mem.read a)

/-- R36: over every step, the streaming context is changed only by INIT, UPDATE, FINAL and COMPRESS, by host writes to H0..H7 (while
idle) and by reset; the key context only by HMAC_KEY and by reset. -/
def Obligations.ContextsChangeOnlyByTheirCommands : Prop :=
  ∀ s t : State, step s = .next t →
    ((t.hstate = s.hstate ∧ t.buf = s.buf ∧ t.cnt = s.cnt ∧ t.phase = s.phase) ∨
      (s.EngineMoves ∧ s.busy = true ∧ ∃ i ∈ [Instr.init, .update, .final, .compress], decode s.cmd = .ok i) ∨
      (s.HostMoves ∧ s.busy = false ∧ ∃ off v, s.hostOps.head? = some (.wr off .word v) ∧
        0x060 ≤ off.toNat ∧ off.toNat ≤ 0x07C ∧ t.buf = s.buf ∧ t.cnt = s.cnt ∧ t.phase = s.phase) ∨
      (s.HostMoves ∧ s.hostOps.head? = some .assertReset)) ∧
    ((t.key = s.key ∧ t.kvalid = s.kvalid) ∨
      (s.EngineMoves ∧ s.busy = true ∧ decode s.cmd = .ok .hmacKey ∧ t.kvalid = true) ∨
      (s.HostMoves ∧ s.hostOps.head? = some .assertReset))

/-! ### Memory and regions -/

/-- R53: a well-formed region is mapped iff MAPPED holds for each of its bytes; a zero-length region is mapped. -/
def Obligations.MappedMeansEveryByte : Prop :=
  ∀ (s : State) (r : Region),
    (r.wellFormed = true →
      (s.mapped r = true ↔ ∀ i, i < r.len.toNat → s.mappedAddr (r.base + BitVec.ofNat 64 i) = true)) ∧
    (r.len = 0 → s.mapped r = true)

/-- R52, R54: two well-formed regions overlap iff some byte belongs to both. -/
def Obligations.OverlapMeansSharedByte : Prop :=
  ∀ r1 r2 : Region, r1.wellFormed = true → r2.wellFormed = true →
    (r1.overlaps r2 = true ↔ ∃ a : Addr, r1.covers a = true ∧ r2.covers a = true)

/-- R50, R51, R55 and log entry 2: a byte written is read back and no other byte changes; the canonical form is kept; two
memories in that form that read alike everywhere are equal. -/
def Obligations.MemoryCanonicalForm : Prop :=
  (∀ (m : Memory) (a a' : Addr) (b : Byte), m.wf = true →
    (m.write a b).wf = true ∧ (m.write a b).read a' = if a' = a then b else m.read a') ∧
  (∀ m m' : Memory, m.wf = true → m'.wf = true → (∀ a : Addr, m.read a = m'.read a) → m = m')

/-- R65, R246 and log entries 11, 12: a host write to an existing byte of plain memory lands there and nowhere else; when a command
runs and the byte is in its output region it holds a free value, and when it is in an input region the engine reads a
free value there; a host read of a byte of the output region is free, any other returns the byte. -/
def Obligations.HostMemoryAccess : Prop :=
  ∀ (s : State) (a : Addr) (b : Byte), s.mem.wf = true → s.mappedAddr a = true → s.deviceAddr a = false →
    (∃ t, s.hostStore a b = .next t ∧
      (∀ a' : Addr, a' ≠ a → t.mem.read a' = s.mem.read a') ∧
      (s.ownedOutput a = false → t.mem.read a = b) ∧
      (s.ownedOutput a = true → t.mem.read a = Config.freeByte s.draws) ∧
      ((s.ownedOutput a = true ∨ s.ownedInput a = true) →
        a ∈ t.races ∧ ∀ p : Nat, t.inputByte p a = Config.raceByte t.draws p a) ∧
      ((s.ownedOutput a = false ∧ s.ownedInput a = false) → t.races = s.races)) ∧
    (∃ t, s.hostLoad a = .next t ∧ t.mem = s.mem ∧
      t.mdata = if s.ownedOutput a then Config.freeByte s.draws else s.mem.read a)

/-! ### Whole-machine rules -/

/-- R38, U6: while KEY_VALID is 0 the key block cannot be observed. A step from a state with another key block gives the same
state but for the key block, and the very same state once a key is set. -/
def Obligations.KeyUnobservableUntilSet : Prop :=
  ∀ (s t : State) (k : List Byte), s.kvalid = false → step s = .next t →
    ∃ t', step { s with key := k } = .next t' ∧ { t' with key := t.key } = t ∧ (t.kvalid = true → t' = t)

/-- R38, U7, R90: while no command runs the latched word and the snapshot cannot be observed. -/
def Obligations.LatchedCommandUnobservableWhileIdle : Prop :=
  ∀ (s t : State) (w : Word) (p : Params), s.busy = false → step s = .next t →
    ∃ t', step { s with cmd := w, snap := p } = .next t' ∧ { t' with cmd := t.cmd, snap := t.snap } = t ∧
      (t.busy = true → t' = t)

/-- R18, R176, R196: what HASH, HMAC_MAC and KDF report and write depends only on their operands, on the bytes of their input
regions and (HMAC_MAC) on the key context: two states that agree on those, in which no byte is raced, give the same code and the
same bytes in the output region. -/
def Obligations.ResultsDependOnlyOnInputs : Prop :=
  ∀ (i : Instr) (s1 s2 t1 : State), i ∈ [Instr.hash, .hmacMac, .kdf] →
    s1.snap = s2.snap → s1.map = s2.map → s1.races = [] → s2.races = [] → s1.mem.wf = true → s2.mem.wf = true →
    (i = .hmacMac → s1.key = s2.key ∧ s1.kvalid = s2.kvalid) →
    (∀ r ∈ Instr.inputRegions i s1.snap, ∀ a : Addr, r.covers a = true → s1.mem.read a = s2.mem.read a) →
    exec i s1 = .next t1 →
    ∃ t2, exec i s2 = .next t2 ∧ t2.err = t1.err ∧
      (t1.err = 0 → ∀ (o : Region) (a : Addr), Instr.outputRegion i s1.snap = some o → o.covers a = true →
        t1.mem.read a = t2.mem.read a)

/-- R76, R77, R244, R255: from a clean entry, in the order in which no turn is listed (the default order, the model's choice, log
entry 7; the spec gives no bound), `run MNEMONIC` takes three steps unless the command is refused: it is accepted, it completes,
and `wait` reads a STATUS with DONE = 1; with no operation after it the run has then ended. A run that has ended stays so, with
the same observation; and two states are observed alike iff their memories and all registers of the window are alike. -/
def Obligations.RunCompletesInThreeSteps : Prop :=
  (∀ (s : State) (l : Launch) (i : Instr) (rest : List HostOp), s.CleanEntry l → l.ops = HostOp.run i ++ rest →
    s.sched = [] → (∀ t, exec i { s.accept (encode i) with hostOps := .wait :: rest } ≠ .refused t) →
    ∃ t : State, core.run 3 s = .next t ∧ t.busy = false ∧ t.done = true ∧ t.hostOps = rest ∧
      statusDone t.rdata = true ∧ (rest = [] → RunEnds s t)) ∧
  (∀ s : State, s.ended = true → ∃ t, step s = .next t ∧ t.ended = true ∧ t.endOfRun = s.endOfRun) ∧
  (∀ s t : State, s.observe = t.observe ↔
    s.mem = t.mem ∧ ∀ off : Offset, off.toNat % 4 = 0 → s.idleRead (regAt off) = t.idleRead (regAt off))
end

