-- ==== Sys2Proof/Laws/State.lean ====
section
/-!
SUPPORT. What each update of the state leaves in each field: one lemma per field per update, so that no later proof
unfolds a record update.
-/
namespace Sys2Proof.Machine

/-! ### `State.accept` -/

@[simp] theorem State.accept_hstate (s : State) (w : Word) : (s.accept w).hstate = s.hstate := rfl
@[simp] theorem State.accept_buf (s : State) (w : Word) : (s.accept w).buf = s.buf := rfl
@[simp] theorem State.accept_cnt (s : State) (w : Word) : (s.accept w).cnt = s.cnt := rfl
@[simp] theorem State.accept_phase (s : State) (w : Word) : (s.accept w).phase = s.phase := rfl
@[simp] theorem State.accept_key (s : State) (w : Word) : (s.accept w).key = s.key := rfl
@[simp] theorem State.accept_kvalid (s : State) (w : Word) : (s.accept w).kvalid = s.kvalid := rfl
@[simp] theorem State.accept_busy (s : State) (w : Word) : (s.accept w).busy = true := rfl
@[simp] theorem State.accept_done (s : State) (w : Word) : (s.accept w).done = false := rfl
@[simp] theorem State.accept_werr (s : State) (w : Word) : (s.accept w).werr = s.werr := rfl
@[simp] theorem State.accept_err (s : State) (w : Word) : (s.accept w).err = 0 := rfl
@[simp] theorem State.accept_ie (s : State) (w : Word) : (s.accept w).ie = s.ie := rfl
@[simp] theorem State.accept_params (s : State) (w : Word) : (s.accept w).params = s.params := rfl
@[simp] theorem State.accept_snap (s : State) (w : Word) : (s.accept w).snap = s.params := rfl
@[simp] theorem State.accept_cmd (s : State) (w : Word) : (s.accept w).cmd = w := rfl
@[simp] theorem State.accept_mem (s : State) (w : Word) : (s.accept w).mem = s.mem := rfl
@[simp] theorem State.accept_map (s : State) (w : Word) : (s.accept w).map = s.map := rfl
@[simp] theorem State.accept_hostOps (s : State) (w : Word) : (s.accept w).hostOps = s.hostOps := rfl
@[simp] theorem State.accept_sched (s : State) (w : Word) : (s.accept w).sched = s.sched := rfl
@[simp] theorem State.accept_races (s : State) (w : Word) : (s.accept w).races = [] := rfl
@[simp] theorem State.accept_rdata (s : State) (w : Word) : (s.accept w).rdata = s.rdata := rfl
@[simp] theorem State.accept_mdata (s : State) (w : Word) : (s.accept w).mdata = s.mdata := rfl
@[simp] theorem State.accept_draws (s : State) (w : Word) : (s.accept w).draws = s.draws + 1 := rfl

/-! ### `State.complete` -/

@[simp] theorem State.complete_hstate (s : State) (c : BitVec 8) : (s.complete c).hstate = s.hstate := rfl
@[simp] theorem State.complete_buf (s : State) (c : BitVec 8) : (s.complete c).buf = s.buf := rfl
@[simp] theorem State.complete_cnt (s : State) (c : BitVec 8) : (s.complete c).cnt = s.cnt := rfl
@[simp] theorem State.complete_phase (s : State) (c : BitVec 8) : (s.complete c).phase = s.phase := rfl
@[simp] theorem State.complete_key (s : State) (c : BitVec 8) : (s.complete c).key = s.key := rfl
@[simp] theorem State.complete_kvalid (s : State) (c : BitVec 8) : (s.complete c).kvalid = s.kvalid := rfl
@[simp] theorem State.complete_busy (s : State) (c : BitVec 8) : (s.complete c).busy = false := rfl
@[simp] theorem State.complete_done (s : State) (c : BitVec 8) : (s.complete c).done = true := rfl
@[simp] theorem State.complete_werr (s : State) (c : BitVec 8) : (s.complete c).werr = s.werr := rfl
@[simp] theorem State.complete_err (s : State) (c : BitVec 8) : (s.complete c).err = c := rfl
@[simp] theorem State.complete_ie (s : State) (c : BitVec 8) : (s.complete c).ie = s.ie := rfl
@[simp] theorem State.complete_params (s : State) (c : BitVec 8) : (s.complete c).params = s.params := rfl
@[simp] theorem State.complete_snap (s : State) (c : BitVec 8) : (s.complete c).snap = s.snap := rfl
@[simp] theorem State.complete_cmd (s : State) (c : BitVec 8) : (s.complete c).cmd = s.cmd := rfl
@[simp] theorem State.complete_mem (s : State) (c : BitVec 8) : (s.complete c).mem = s.mem := rfl
@[simp] theorem State.complete_map (s : State) (c : BitVec 8) : (s.complete c).map = s.map := rfl
@[simp] theorem State.complete_hostOps (s : State) (c : BitVec 8) : (s.complete c).hostOps = s.hostOps := rfl
@[simp] theorem State.complete_sched (s : State) (c : BitVec 8) : (s.complete c).sched = s.sched := rfl
@[simp] theorem State.complete_races (s : State) (c : BitVec 8) : (s.complete c).races = [] := rfl
@[simp] theorem State.complete_rdata (s : State) (c : BitVec 8) : (s.complete c).rdata = s.rdata := rfl
@[simp] theorem State.complete_mdata (s : State) (c : BitVec 8) : (s.complete c).mdata = s.mdata := rfl
@[simp] theorem State.complete_draws (s : State) (c : BitVec 8) : (s.complete c).draws = s.draws := rfl

/-! ### `State.setStream` -/

@[simp] theorem State.setStream_hstate (s : State) (c : Stream) : (s.setStream c).hstate = c.h := rfl
@[simp] theorem State.setStream_buf (s : State) (c : Stream) : (s.setStream c).buf = c.buf := rfl
@[simp] theorem State.setStream_cnt (s : State) (c : Stream) : (s.setStream c).cnt = c.cnt := rfl
@[simp] theorem State.setStream_phase (s : State) (c : Stream) : (s.setStream c).phase = s.phase := rfl
@[simp] theorem State.setStream_key (s : State) (c : Stream) : (s.setStream c).key = s.key := rfl
@[simp] theorem State.setStream_kvalid (s : State) (c : Stream) : (s.setStream c).kvalid = s.kvalid := rfl
@[simp] theorem State.setStream_busy (s : State) (c : Stream) : (s.setStream c).busy = s.busy := rfl
@[simp] theorem State.setStream_done (s : State) (c : Stream) : (s.setStream c).done = s.done := rfl
@[simp] theorem State.setStream_werr (s : State) (c : Stream) : (s.setStream c).werr = s.werr := rfl
@[simp] theorem State.setStream_err (s : State) (c : Stream) : (s.setStream c).err = s.err := rfl
@[simp] theorem State.setStream_ie (s : State) (c : Stream) : (s.setStream c).ie = s.ie := rfl
@[simp] theorem State.setStream_params (s : State) (c : Stream) : (s.setStream c).params = s.params := rfl
@[simp] theorem State.setStream_snap (s : State) (c : Stream) : (s.setStream c).snap = s.snap := rfl
@[simp] theorem State.setStream_cmd (s : State) (c : Stream) : (s.setStream c).cmd = s.cmd := rfl
@[simp] theorem State.setStream_mem (s : State) (c : Stream) : (s.setStream c).mem = s.mem := rfl
@[simp] theorem State.setStream_map (s : State) (c : Stream) : (s.setStream c).map = s.map := rfl
@[simp] theorem State.setStream_hostOps (s : State) (c : Stream) : (s.setStream c).hostOps = s.hostOps := rfl
@[simp] theorem State.setStream_sched (s : State) (c : Stream) : (s.setStream c).sched = s.sched := rfl
@[simp] theorem State.setStream_races (s : State) (c : Stream) : (s.setStream c).races = s.races := rfl
@[simp] theorem State.setStream_rdata (s : State) (c : Stream) : (s.setStream c).rdata = s.rdata := rfl
@[simp] theorem State.setStream_mdata (s : State) (c : Stream) : (s.setStream c).mdata = s.mdata := rfl
@[simp] theorem State.setStream_draws (s : State) (c : Stream) : (s.setStream c).draws = s.draws := rfl

/-! ### `State.writeStatus` -/

@[simp] theorem State.writeStatus_hstate (s : State) (v : Word) : (s.writeStatus v).hstate = s.hstate := rfl
@[simp] theorem State.writeStatus_buf (s : State) (v : Word) : (s.writeStatus v).buf = s.buf := rfl
@[simp] theorem State.writeStatus_cnt (s : State) (v : Word) : (s.writeStatus v).cnt = s.cnt := rfl
@[simp] theorem State.writeStatus_phase (s : State) (v : Word) : (s.writeStatus v).phase = s.phase := rfl
@[simp] theorem State.writeStatus_key (s : State) (v : Word) : (s.writeStatus v).key = s.key := rfl
@[simp] theorem State.writeStatus_kvalid (s : State) (v : Word) : (s.writeStatus v).kvalid = s.kvalid := rfl
@[simp] theorem State.writeStatus_busy (s : State) (v : Word) : (s.writeStatus v).busy = s.busy := rfl
@[simp] theorem State.writeStatus_done (s : State) (v : Word) : (s.writeStatus v).done = (s.done && !v.getLsbD 1) := rfl
@[simp] theorem State.writeStatus_werr (s : State) (v : Word) : (s.writeStatus v).werr = (s.werr && !v.getLsbD 2) := rfl
@[simp] theorem State.writeStatus_err (s : State) (v : Word) : (s.writeStatus v).err = s.err := rfl
@[simp] theorem State.writeStatus_ie (s : State) (v : Word) : (s.writeStatus v).ie = s.ie := rfl
@[simp] theorem State.writeStatus_params (s : State) (v : Word) : (s.writeStatus v).params = s.params := rfl
@[simp] theorem State.writeStatus_snap (s : State) (v : Word) : (s.writeStatus v).snap = s.snap := rfl
@[simp] theorem State.writeStatus_cmd (s : State) (v : Word) : (s.writeStatus v).cmd = s.cmd := rfl
@[simp] theorem State.writeStatus_mem (s : State) (v : Word) : (s.writeStatus v).mem = s.mem := rfl
@[simp] theorem State.writeStatus_map (s : State) (v : Word) : (s.writeStatus v).map = s.map := rfl
@[simp] theorem State.writeStatus_hostOps (s : State) (v : Word) : (s.writeStatus v).hostOps = s.hostOps := rfl
@[simp] theorem State.writeStatus_sched (s : State) (v : Word) : (s.writeStatus v).sched = s.sched := rfl
@[simp] theorem State.writeStatus_races (s : State) (v : Word) : (s.writeStatus v).races = s.races := rfl
@[simp] theorem State.writeStatus_rdata (s : State) (v : Word) : (s.writeStatus v).rdata = s.rdata := rfl
@[simp] theorem State.writeStatus_mdata (s : State) (v : Word) : (s.writeStatus v).mdata = s.mdata := rfl
@[simp] theorem State.writeStatus_draws (s : State) (v : Word) : (s.writeStatus v).draws = s.draws := rfl

/-! ### `State.writeCtrl` -/

@[simp] theorem State.writeCtrl_hstate (s : State) (v : Word) : (s.writeCtrl v).hstate = s.hstate := rfl
@[simp] theorem State.writeCtrl_buf (s : State) (v : Word) : (s.writeCtrl v).buf = s.buf := rfl
@[simp] theorem State.writeCtrl_cnt (s : State) (v : Word) : (s.writeCtrl v).cnt = s.cnt := rfl
@[simp] theorem State.writeCtrl_phase (s : State) (v : Word) : (s.writeCtrl v).phase = s.phase := rfl
@[simp] theorem State.writeCtrl_key (s : State) (v : Word) : (s.writeCtrl v).key = s.key := rfl
@[simp] theorem State.writeCtrl_kvalid (s : State) (v : Word) : (s.writeCtrl v).kvalid = s.kvalid := rfl
@[simp] theorem State.writeCtrl_busy (s : State) (v : Word) : (s.writeCtrl v).busy = s.busy := rfl
@[simp] theorem State.writeCtrl_done (s : State) (v : Word) : (s.writeCtrl v).done = s.done := rfl
@[simp] theorem State.writeCtrl_werr (s : State) (v : Word) : (s.writeCtrl v).werr = s.werr := rfl
@[simp] theorem State.writeCtrl_err (s : State) (v : Word) : (s.writeCtrl v).err = s.err := rfl
@[simp] theorem State.writeCtrl_ie (s : State) (v : Word) : (s.writeCtrl v).ie = v.getLsbD 0 := rfl
@[simp] theorem State.writeCtrl_params (s : State) (v : Word) : (s.writeCtrl v).params = s.params := rfl
@[simp] theorem State.writeCtrl_snap (s : State) (v : Word) : (s.writeCtrl v).snap = s.snap := rfl
@[simp] theorem State.writeCtrl_cmd (s : State) (v : Word) : (s.writeCtrl v).cmd = s.cmd := rfl
@[simp] theorem State.writeCtrl_mem (s : State) (v : Word) : (s.writeCtrl v).mem = s.mem := rfl
@[simp] theorem State.writeCtrl_map (s : State) (v : Word) : (s.writeCtrl v).map = s.map := rfl
@[simp] theorem State.writeCtrl_hostOps (s : State) (v : Word) : (s.writeCtrl v).hostOps = s.hostOps := rfl
@[simp] theorem State.writeCtrl_sched (s : State) (v : Word) : (s.writeCtrl v).sched = s.sched := rfl
@[simp] theorem State.writeCtrl_races (s : State) (v : Word) : (s.writeCtrl v).races = s.races := rfl
@[simp] theorem State.writeCtrl_rdata (s : State) (v : Word) : (s.writeCtrl v).rdata = s.rdata := rfl
@[simp] theorem State.writeCtrl_mdata (s : State) (v : Word) : (s.writeCtrl v).mdata = s.mdata := rfl
@[simp] theorem State.writeCtrl_draws (s : State) (v : Word) : (s.writeCtrl v).draws = s.draws := rfl

/-! ### `State.hostRead` -/

@[simp] theorem State.hostRead_hstate (s : State) (r : Reg) : (s.hostRead r).hstate = s.hstate := rfl
@[simp] theorem State.hostRead_buf (s : State) (r : Reg) : (s.hostRead r).buf = s.buf := rfl
@[simp] theorem State.hostRead_cnt (s : State) (r : Reg) : (s.hostRead r).cnt = s.cnt := rfl
@[simp] theorem State.hostRead_phase (s : State) (r : Reg) : (s.hostRead r).phase = s.phase := rfl
@[simp] theorem State.hostRead_key (s : State) (r : Reg) : (s.hostRead r).key = s.key := rfl
@[simp] theorem State.hostRead_kvalid (s : State) (r : Reg) : (s.hostRead r).kvalid = s.kvalid := rfl
@[simp] theorem State.hostRead_busy (s : State) (r : Reg) : (s.hostRead r).busy = s.busy := rfl
@[simp] theorem State.hostRead_done (s : State) (r : Reg) : (s.hostRead r).done = s.done := rfl
@[simp] theorem State.hostRead_werr (s : State) (r : Reg) : (s.hostRead r).werr = s.werr := rfl
@[simp] theorem State.hostRead_err (s : State) (r : Reg) : (s.hostRead r).err = s.err := rfl
@[simp] theorem State.hostRead_ie (s : State) (r : Reg) : (s.hostRead r).ie = s.ie := rfl
@[simp] theorem State.hostRead_params (s : State) (r : Reg) : (s.hostRead r).params = s.params := rfl
@[simp] theorem State.hostRead_snap (s : State) (r : Reg) : (s.hostRead r).snap = s.snap := rfl
@[simp] theorem State.hostRead_cmd (s : State) (r : Reg) : (s.hostRead r).cmd = s.cmd := rfl
@[simp] theorem State.hostRead_mem (s : State) (r : Reg) : (s.hostRead r).mem = s.mem := rfl
@[simp] theorem State.hostRead_map (s : State) (r : Reg) : (s.hostRead r).map = s.map := rfl
@[simp] theorem State.hostRead_hostOps (s : State) (r : Reg) : (s.hostRead r).hostOps = s.hostOps := rfl
@[simp] theorem State.hostRead_sched (s : State) (r : Reg) : (s.hostRead r).sched = s.sched := rfl
@[simp] theorem State.hostRead_races (s : State) (r : Reg) : (s.hostRead r).races = s.races := rfl
@[simp] theorem State.hostRead_rdata (s : State) (r : Reg) : (s.hostRead r).rdata = s.readReg r := rfl
@[simp] theorem State.hostRead_mdata (s : State) (r : Reg) : (s.hostRead r).mdata = s.mdata := rfl
@[simp] theorem State.hostRead_draws (s : State) (r : Reg) : (s.hostRead r).draws = if s.busy then s.draws + 1 else s.draws := rfl

/-! ### `State.turnTaken` -/

@[simp] theorem State.turnTaken_hstate (s : State) : (s.turnTaken).hstate = s.hstate := rfl
@[simp] theorem State.turnTaken_buf (s : State) : (s.turnTaken).buf = s.buf := rfl
@[simp] theorem State.turnTaken_cnt (s : State) : (s.turnTaken).cnt = s.cnt := rfl
@[simp] theorem State.turnTaken_phase (s : State) : (s.turnTaken).phase = s.phase := rfl
@[simp] theorem State.turnTaken_key (s : State) : (s.turnTaken).key = s.key := rfl
@[simp] theorem State.turnTaken_kvalid (s : State) : (s.turnTaken).kvalid = s.kvalid := rfl
@[simp] theorem State.turnTaken_busy (s : State) : (s.turnTaken).busy = s.busy := rfl
@[simp] theorem State.turnTaken_done (s : State) : (s.turnTaken).done = s.done := rfl
@[simp] theorem State.turnTaken_werr (s : State) : (s.turnTaken).werr = s.werr := rfl
@[simp] theorem State.turnTaken_err (s : State) : (s.turnTaken).err = s.err := rfl
@[simp] theorem State.turnTaken_ie (s : State) : (s.turnTaken).ie = s.ie := rfl
@[simp] theorem State.turnTaken_params (s : State) : (s.turnTaken).params = s.params := rfl
@[simp] theorem State.turnTaken_snap (s : State) : (s.turnTaken).snap = s.snap := rfl
@[simp] theorem State.turnTaken_cmd (s : State) : (s.turnTaken).cmd = s.cmd := rfl
@[simp] theorem State.turnTaken_mem (s : State) : (s.turnTaken).mem = s.mem := rfl
@[simp] theorem State.turnTaken_map (s : State) : (s.turnTaken).map = s.map := rfl
@[simp] theorem State.turnTaken_hostOps (s : State) : (s.turnTaken).hostOps = s.hostOps := rfl
@[simp] theorem State.turnTaken_sched (s : State) : (s.turnTaken).sched = s.sched.tail := rfl
@[simp] theorem State.turnTaken_races (s : State) : (s.turnTaken).races = s.races := rfl
@[simp] theorem State.turnTaken_rdata (s : State) : (s.turnTaken).rdata = s.rdata := rfl
@[simp] theorem State.turnTaken_mdata (s : State) : (s.turnTaken).mdata = s.mdata := rfl
@[simp] theorem State.turnTaken_draws (s : State) : (s.turnTaken).draws = s.draws := rfl

/-! ### `State.opTaken` -/

@[simp] theorem State.opTaken_hstate (s : State) : (s.opTaken).hstate = s.hstate := rfl
@[simp] theorem State.opTaken_buf (s : State) : (s.opTaken).buf = s.buf := rfl
@[simp] theorem State.opTaken_cnt (s : State) : (s.opTaken).cnt = s.cnt := rfl
@[simp] theorem State.opTaken_phase (s : State) : (s.opTaken).phase = s.phase := rfl
@[simp] theorem State.opTaken_key (s : State) : (s.opTaken).key = s.key := rfl
@[simp] theorem State.opTaken_kvalid (s : State) : (s.opTaken).kvalid = s.kvalid := rfl
@[simp] theorem State.opTaken_busy (s : State) : (s.opTaken).busy = s.busy := rfl
@[simp] theorem State.opTaken_done (s : State) : (s.opTaken).done = s.done := rfl
@[simp] theorem State.opTaken_werr (s : State) : (s.opTaken).werr = s.werr := rfl
@[simp] theorem State.opTaken_err (s : State) : (s.opTaken).err = s.err := rfl
@[simp] theorem State.opTaken_ie (s : State) : (s.opTaken).ie = s.ie := rfl
@[simp] theorem State.opTaken_params (s : State) : (s.opTaken).params = s.params := rfl
@[simp] theorem State.opTaken_snap (s : State) : (s.opTaken).snap = s.snap := rfl
@[simp] theorem State.opTaken_cmd (s : State) : (s.opTaken).cmd = s.cmd := rfl
@[simp] theorem State.opTaken_mem (s : State) : (s.opTaken).mem = s.mem := rfl
@[simp] theorem State.opTaken_map (s : State) : (s.opTaken).map = s.map := rfl
@[simp] theorem State.opTaken_hostOps (s : State) : (s.opTaken).hostOps = s.hostOps.tail := rfl
@[simp] theorem State.opTaken_sched (s : State) : (s.opTaken).sched = s.sched.tail := rfl
@[simp] theorem State.opTaken_races (s : State) : (s.opTaken).races = s.races := rfl
@[simp] theorem State.opTaken_rdata (s : State) : (s.opTaken).rdata = s.rdata := rfl
@[simp] theorem State.opTaken_mdata (s : State) : (s.opTaken).mdata = s.mdata := rfl
@[simp] theorem State.opTaken_draws (s : State) : (s.opTaken).draws = s.draws := rfl

/-! ### `State.assertReset` -/

@[simp] theorem State.assertReset_hstate (s : State) : s.assertReset.hstate = State.reset.hstate := rfl
@[simp] theorem State.assertReset_buf (s : State) : s.assertReset.buf = State.reset.buf := rfl
@[simp] theorem State.assertReset_cnt (s : State) : s.assertReset.cnt = State.reset.cnt := rfl
@[simp] theorem State.assertReset_phase (s : State) : s.assertReset.phase = State.reset.phase := rfl
@[simp] theorem State.assertReset_key (s : State) : s.assertReset.key = State.reset.key := rfl
@[simp] theorem State.assertReset_kvalid (s : State) : s.assertReset.kvalid = State.reset.kvalid := rfl
@[simp] theorem State.assertReset_busy (s : State) : s.assertReset.busy = State.reset.busy := rfl
@[simp] theorem State.assertReset_done (s : State) : s.assertReset.done = State.reset.done := rfl
@[simp] theorem State.assertReset_werr (s : State) : s.assertReset.werr = State.reset.werr := rfl
@[simp] theorem State.assertReset_err (s : State) : s.assertReset.err = State.reset.err := rfl
@[simp] theorem State.assertReset_ie (s : State) : s.assertReset.ie = State.reset.ie := rfl
@[simp] theorem State.assertReset_params (s : State) : s.assertReset.params = State.reset.params := rfl
@[simp] theorem State.assertReset_snap (s : State) : s.assertReset.snap = State.reset.snap := rfl
@[simp] theorem State.assertReset_cmd (s : State) : s.assertReset.cmd = State.reset.cmd := rfl
@[simp] theorem State.assertReset_mem (s : State) : s.assertReset.mem = s.memAfterReset := rfl
@[simp] theorem State.assertReset_map (s : State) : s.assertReset.map = s.map := rfl
@[simp] theorem State.assertReset_hostOps (s : State) : s.assertReset.hostOps = s.hostOps := rfl
@[simp] theorem State.assertReset_sched (s : State) : s.assertReset.sched = s.sched := rfl
@[simp] theorem State.assertReset_races (s : State) : s.assertReset.races = State.reset.races := rfl
@[simp] theorem State.assertReset_rdata (s : State) : s.assertReset.rdata = s.rdata := rfl
@[simp] theorem State.assertReset_mdata (s : State) : s.assertReset.mdata = s.mdata := rfl
@[simp] theorem State.assertReset_draws (s : State) : s.assertReset.draws = s.draws + 1 := rfl

/-! ### `State.reset` -/

@[simp] theorem State.reset_hstate : State.reset.hstate = iv := rfl
@[simp] theorem State.reset_buf : State.reset.buf = [] := rfl
@[simp] theorem State.reset_cnt : State.reset.cnt = 0 := rfl
@[simp] theorem State.reset_phase : State.reset.phase = .accumulating := rfl
@[simp] theorem State.reset_key : State.reset.key = List.replicate 64 0 := rfl
@[simp] theorem State.reset_kvalid : State.reset.kvalid = false := rfl
@[simp] theorem State.reset_busy : State.reset.busy = false := rfl
@[simp] theorem State.reset_done : State.reset.done = false := rfl
@[simp] theorem State.reset_werr : State.reset.werr = false := rfl
@[simp] theorem State.reset_err : State.reset.err = 0 := rfl
@[simp] theorem State.reset_ie : State.reset.ie = false := rfl
@[simp] theorem State.reset_params : State.reset.params = Params.zero := rfl
@[simp] theorem State.reset_snap : State.reset.snap = Params.zero := rfl
@[simp] theorem State.reset_cmd : State.reset.cmd = 0 := rfl
@[simp] theorem State.reset_mem : State.reset.mem = [] := rfl
@[simp] theorem State.reset_map : State.reset.map = [⟨0, 0x10000, .memory⟩] := rfl
@[simp] theorem State.reset_hostOps : State.reset.hostOps = [] := rfl
@[simp] theorem State.reset_sched : State.reset.sched = [] := rfl
@[simp] theorem State.reset_races : State.reset.races = [] := rfl
@[simp] theorem State.reset_rdata : State.reset.rdata = 0 := rfl
@[simp] theorem State.reset_mdata : State.reset.mdata = 0 := rfl
@[simp] theorem State.reset_draws : State.reset.draws = 0 := rfl

end Sys2Proof.Machine
end

