-- ==== Sys2Proof/Laws/Exec.lean ====
section
/-!
SUPPORT. What each command can answer, said once: an error, which changes nothing but the status, or its own effect under
its checks (40_dispatch.md R92 to R95). Later proofs cite these instead of unfolding a meaning.
-/
namespace Sys2Proof.Machine

@[simp] theorem State.succeed_eq (s : State) : s.succeed = .next (s.complete 0) := rfl

@[simp] theorem State.raise_eq (s : State) (e : ErrorCode) : s.raise e = .next (s.complete e.code) := rfl

/-- No error reports the code of success. -/
@[simp] theorem ErrorCode.code_ne_zero (e : ErrorCode) : e.code ≠ 0 := by cases e <;> decide

/-- No error reports a reserved code (60_exceptions.md R210). -/
theorem ErrorCode.code_le (e : ErrorCode) : e.code.toNat ≤ 7 := by cases e <;> decide

/-- The command ended with an error of its own: nothing but the status changed. -/
def State.ErrsTo (s t : State) : Prop := ∃ e : ErrorCode, e ≠ .illegalCommand ∧ t = s.complete e.code

/-- `raise` gives an error. -/
theorem State.raise_errsTo {s t : State} {e : ErrorCode} (he : e ≠ .illegalCommand) (h : s.raise e = .next t) :
    s.ErrsTo t := by
  rw [State.raise_eq] at h
  cases h
  exact ⟨e, he, rfl⟩

theorem execNop_next {s t : State} (h : execNop s = .next t) : t = s.complete 0 := by
  cases h
  rfl

theorem execInit_next {s t : State} (h : execInit s = .next t) :
    t = State.complete { s with hstate := iv, buf := [], cnt := 0, phase := .accumulating } 0 := by
  cases h
  rfl

theorem execCompress_next {s t : State} (h : execCompress s = .next t) :
    s.ErrsTo t ∨
    (s.snap.src.wellFormed = true ∧ s.snap.srcLen = 64 ∧ s.mapped s.snap.src = true ∧ s.admits s.snap.src = true ∧
      t = State.complete { s with hstate := compressBlock s.hstate (s.readRegion 0 s.snap.src) } 0) := by
  unfold execCompress at h
  split at h
  · exact .inl (State.raise_errsTo (by decide) h)
  split at h
  · exact .inl (State.raise_errsTo (by decide) h)
  split at h
  · exact .inl (State.raise_errsTo (by decide) h)
  split at h
  · cases h
  · cases h
    simp_all

theorem execUpdate_next {s t : State} (h : execUpdate s = .next t) :
    s.ErrsTo t ∨
    (s.phase = .accumulating ∧ s.snap.src.wellFormed = true ∧ s.cnt.toNat / 8 + s.snap.srcLen.toNat ≤ lmax ∧
      s.mapped s.snap.src = true ∧ s.admits s.snap.src = true ∧
      t = (s.setStream (absorb s.stream (s.readRegion 0 s.snap.src))).complete 0) := by
  unfold execUpdate at h
  split at h
  · exact .inl (State.raise_errsTo (by decide) h)
  split at h
  · exact .inl (State.raise_errsTo (by decide) h)
  split at h
  · exact .inl (State.raise_errsTo (by decide) h)
  split at h
  · exact .inl (State.raise_errsTo (by decide) h)
  split at h
  · cases h
  · cases h
    rename_i hp _ hl _ _
    have hp' : s.phase = .accumulating := by
      cases hs : s.phase with
      | accumulating => rfl
      | finalized => exact absurd hs hp
    refine .inr ⟨hp', ?_⟩
    simp_all

theorem execFinal_next {s t : State} (h : execFinal s = .next t) :
    s.ErrsTo t ∨
    (s.phase = .accumulating ∧ s.snap.dst32.wellFormed = true ∧ s.mapped s.snap.dst32 = true ∧
      s.admits s.snap.dst32 = true ∧
      t = State.complete { s with
        hstate := finish s.stream, buf := [], phase := .finalized,
        mem := s.memWrite s.snap.dstAddr (digest (finish s.stream)) } 0) := by
  unfold execFinal at h
  split at h
  · exact .inl (State.raise_errsTo (by decide) h)
  split at h
  · exact .inl (State.raise_errsTo (by decide) h)
  split at h
  · exact .inl (State.raise_errsTo (by decide) h)
  split at h
  · cases h
  · cases h
    rename_i hp _ _ _
    have hp' : s.phase = .accumulating := by
      cases hs : s.phase with
      | accumulating => rfl
      | finalized => exact absurd hs hp
    refine .inr ⟨hp', ?_⟩
    simp_all

theorem execHash_next {s t : State} (h : execHash s = .next t) :
    s.ErrsTo t ∨
    (s.snap.src.wellFormed = true ∧ s.snap.dst32.wellFormed = true ∧ s.snap.dst32.overlaps s.snap.src = false ∧
      s.snap.srcLen.toNat ≤ lmax ∧ s.mapped s.snap.src = true ∧ s.mapped s.snap.dst32 = true ∧
      s.admits s.snap.src = true ∧ s.admits s.snap.dst32 = true ∧
      t = State.complete { s with mem := s.memWrite s.snap.dstAddr (sha256 (s.readRegion 0 s.snap.src)) } 0) := by
  unfold execHash at h
  split at h
  · exact .inl (State.raise_errsTo (by decide) h)
  split at h
  · exact .inl (State.raise_errsTo (by decide) h)
  split at h
  · exact .inl (State.raise_errsTo (by decide) h)
  split at h
  · exact .inl (State.raise_errsTo (by decide) h)
  split at h
  · exact .inl (State.raise_errsTo (by decide) h)
  split at h
  · cases h
  · cases h
    simp_all

theorem execHmacKey_next {s t : State} (h : execHmacKey s = .next t) :
    s.ErrsTo t ∨
    (s.snap.src.wellFormed = true ∧ s.snap.srcLen.toNat ≤ lmax ∧ s.mapped s.snap.src = true ∧
      s.admits s.snap.src = true ∧
      t = State.complete { s with key := normKey (s.readRegion 0 s.snap.src), kvalid := true } 0) := by
  unfold execHmacKey at h
  split at h
  · exact .inl (State.raise_errsTo (by decide) h)
  split at h
  · exact .inl (State.raise_errsTo (by decide) h)
  split at h
  · exact .inl (State.raise_errsTo (by decide) h)
  split at h
  · cases h
  · cases h
    simp_all

theorem execHmacMac_next {s t : State} (h : execHmacMac s = .next t) :
    s.ErrsTo t ∨
    (s.kvalid = true ∧ s.snap.src.wellFormed = true ∧ s.snap.dst32.wellFormed = true ∧
      s.snap.dst32.overlaps s.snap.src = false ∧ s.snap.srcLen.toNat ≤ lmax - 64 ∧
      s.mapped s.snap.src = true ∧ s.mapped s.snap.dst32 = true ∧
      s.admits s.snap.src = true ∧ s.admits s.snap.dst32 = true ∧
      t = State.complete { s with mem := s.memWrite s.snap.dstAddr (hmacK s.key (s.readRegion 0 s.snap.src)) } 0) := by
  unfold execHmacMac at h
  split at h
  · exact .inl (State.raise_errsTo (by decide) h)
  split at h
  · exact .inl (State.raise_errsTo (by decide) h)
  split at h
  · exact .inl (State.raise_errsTo (by decide) h)
  split at h
  · exact .inl (State.raise_errsTo (by decide) h)
  split at h
  · exact .inl (State.raise_errsTo (by decide) h)
  split at h
  · exact .inl (State.raise_errsTo (by decide) h)
  split at h
  · cases h
  · cases h
    simp_all

theorem execKdf_next {s t : State} (h : execKdf s = .next t) :
    s.ErrsTo t ∨
    (s.snap.src.wellFormed = true ∧ s.snap.aux.wellFormed = true ∧ s.snap.dstOut.wellFormed = true ∧
      s.snap.dstOut.overlaps s.snap.src = false ∧ s.snap.dstOut.overlaps s.snap.aux = false ∧
      s.snap.outLen.toNat ≤ outMax ∧ s.snap.srcLen.toNat ≤ lmax ∧ s.snap.auxLen.toNat ≤ lmax - 68 ∧
      s.mapped s.snap.src = true ∧ s.mapped s.snap.aux = true ∧ s.mapped s.snap.dstOut = true ∧
      s.admits s.snap.src = true ∧ s.admits s.snap.aux = true ∧ s.admits s.snap.dstOut = true ∧
      t = State.complete { s with
        mem := s.memWrite s.snap.dstAddr
          (pbkdf (s.readRegion 0 s.snap.src) (s.readRegion 1 s.snap.aux) s.snap.iter s.snap.outLen.toNat) } 0) := by
  unfold execKdf at h
  split at h
  · exact .inl (State.raise_errsTo (by decide) h)
  split at h
  · exact .inl (State.raise_errsTo (by decide) h)
  split at h
  · exact .inl (State.raise_errsTo (by decide) h)
  split at h
  · exact .inl (State.raise_errsTo (by decide) h)
  split at h
  · exact .inl (State.raise_errsTo (by decide) h)
  split at h
  · exact .inl (State.raise_errsTo (by decide) h)
  split at h
  · exact .inl (State.raise_errsTo (by decide) h)
  split at h
  · cases h
  · cases h
    simp_all

/-- The fields of an error completion. -/
theorem State.ErrsTo.fields {s t : State} (h : s.ErrsTo t) :
    ∃ e : ErrorCode, e ≠ .illegalCommand ∧
      t = { s with err := e.code, busy := false, done := true, races := [] } := h

end Sys2Proof.Machine
end

