-- ==== Sys2Proof/Laws/Functions.lean ====
section
/-!
SUPPORT. The functional layer: lengths, and the small laws of absorbing bytes (41_compression.md, 42_streaming.md,
43_hmac.md, 44_kdf.md).
-/
namespace Sys2Proof.Machine

@[simp] theorem zeros_length (n : Nat) : (zeros n).length = n := List.length_replicate ..

@[simp] theorem zeros_zero : zeros 0 = [] := rfl

theorem zeros_append (m n : Nat) : zeros m ++ zeros n = zeros (m + n) := List.replicate_append_replicate ..

@[simp] theorem be32_length (w : Word) : (be32 w).length = 4 := rfl

@[simp] theorem be64_length (d : DWord) : (be64 d).length = 8 := rfl

@[simp] theorem digest_length (h : HashState) : (digest h).length = 32 := rfl

@[simp] theorem sha256_length (m : List Byte) : (sha256 m).length = 32 := rfl

@[simp] theorem xorBytes_length (a b : List Byte) : (xorBytes a b).length = min a.length b.length := by
  simp [xorBytes]

@[simp] theorem hmacK_length (k0 m : List Byte) : (hmacK k0 m).length = 32 := rfl

/-- A normalised key has 64 bytes (43_hmac.md R171). -/
@[simp] theorem normKey_length (k : List Byte) : (normKey k).length = 64 := by
  unfold normKey
  split
  · simp
  · simp
    omega

/-- Reading word `i` of a hash state after a word was replaced. -/
theorem HashState.get_set (h : HashState) (i j : Fin 8) (v : Word) :
    (h.set i v).get j = if j = i then v else h.get j := by
  fin_cases i <;> fin_cases j <;> rfl

/-- Absorbing two pieces of a byte sequence, one after the other. -/
theorem absorbBytes_append (hb : HashState × List Byte) (a b : List Byte) :
    absorbBytes hb (a ++ b) = absorbBytes (absorbBytes hb a) b := List.foldl_append ..

@[simp] theorem absorbBytes_nil (hb : HashState × List Byte) : absorbBytes hb [] = hb := rfl

theorem absorbBytes_cons (hb : HashState × List Byte) (x : Byte) (d : List Byte) :
    absorbBytes hb (x :: d) = absorbBytes (absorbByte hb x) d := rfl

/-- Bytes that do not fill the buffer only go into it. -/
theorem absorbBytes_short (h : HashState) :
    ∀ (d buf : List Byte), buf.length + d.length ≤ 63 → absorbBytes (h, buf) d = (h, buf ++ d)
  | [], buf, _ => by simp
  | x :: d, buf, hl => by
    have hx : absorbByte (h, buf) x = (h, buf ++ [x]) := by
      simp only [absorbByte]
      rw [if_neg]
      simp at hl ⊢
      omega
    rw [absorbBytes_cons, hx, absorbBytes_short h d (buf ++ [x]) (by simp at hl ⊢; omega)]
    simp

/-- Bytes that just fill the buffer are compressed with it. -/
theorem absorbBytes_fill (h : HashState) :
    ∀ (d buf : List Byte), d ≠ [] → buf.length + d.length = 64 →
      absorbBytes (h, buf) d = (compressBlock h (buf ++ d), [])
  | [], _, hne, _ => absurd rfl hne
  | [x], buf, _, hl => by
    rw [absorbBytes_cons, absorbBytes_nil, absorbByte, if_pos]
    simpa using hl
  | x :: y :: d, buf, _, hl => by
    have hx : absorbByte (h, buf) x = (h, buf ++ [x]) := by
      simp only [absorbByte]
      rw [if_neg]
      simp at hl ⊢
      omega
    rw [absorbBytes_cons, hx, absorbBytes_fill h (y :: d) (buf ++ [x]) (by simp) (by simp at hl ⊢; omega)]
    simp

/-- The buffer never holds more than 63 bytes, and holds the number of bytes after the last complete block. -/
theorem absorbBytes_buf_length :
    ∀ (d : List Byte) (hb : HashState × List Byte), hb.2.length ≤ 63 →
      (absorbBytes hb d).2.length = (hb.2.length + d.length) % 64
  | [], hb, hl => by
    rw [absorbBytes_nil, List.length_nil]
    omega
  | x :: d, hb, hl => by
    rw [absorbBytes_cons]
    by_cases hf : (hb.2 ++ [x]).length = 64
    · rw [absorbByte, if_pos hf, absorbBytes_buf_length d _ (by simp)]
      simp at hf ⊢
      omega
    · rw [absorbByte, if_neg hf, absorbBytes_buf_length d _ (by simp at hf ⊢; omega)]
      simp
      omega

/-- The blocks of a longer prefix: one more block at the end. -/
theorem firstBlocks_succ (n : Nat) (b : List Byte) :
    firstBlocks (n + 1) b = firstBlocks n b ++ [(b.drop (64 * n)).take 64] := by
  simp [firstBlocks, List.range_succ]

/-- The blocks of a longer prefix: one more block in front. -/
theorem firstBlocks_cons (n : Nat) (b : List Byte) :
    firstBlocks (n + 1) b = b.take 64 :: firstBlocks n (b.drop 64) := by
  simp only [firstBlocks, List.range_succ_eq_map, List.map_cons, List.map_map, List.drop_drop]
  simp [Function.comp_def, Nat.mul_add, Nat.add_comm]

@[simp] theorem firstBlocks_zero (b : List Byte) : firstBlocks 0 b = [] := rfl

theorem compressBlocks_append (h : HashState) (a b : List (List Byte)) :
    compressBlocks h (a ++ b) = compressBlocks (compressBlocks h a) b := List.foldl_append ..

@[simp] theorem compressBlocks_nil (h : HashState) : compressBlocks h [] = h := rfl

theorem compressBlocks_cons (h : HashState) (x : List Byte) (b : List (List Byte)) :
    compressBlocks h (x :: b) = compressBlocks (compressBlock h x) b := rfl

/-- Sixteen words come out of a block of 64 bytes. -/
theorem blockWords_length : ∀ (n : Nat) (b : List Byte), b.length = 4 * n → (blockWords b).length = n
  | 0, [], _ => rfl
  | n + 1, b0 :: b1 :: b2 :: b3 :: rest, h => by
    simp only [blockWords, List.length_cons]
    rw [blockWords_length n rest (by simp at h; omega)]

/-- Word `t` comes out of bytes 4t to 4t + 3 (41_compression.md R117). -/
theorem blockWords_getD : ∀ (t : Nat) (b : List Byte), 4 * t + 4 ≤ b.length →
    (blockWords b).getD t 0 = bew (b.getD (4 * t) 0) (b.getD (4 * t + 1) 0) (b.getD (4 * t + 2) 0) (b.getD (4 * t + 3) 0)
  | 0, b0 :: b1 :: b2 :: b3 :: rest, _ => by simp [blockWords]
  | t + 1, b0 :: b1 :: b2 :: b3 :: rest, h => by
    have ih := blockWords_getD t rest (by simp at h; omega)
    simp only [blockWords, List.getD_cons_succ, ih]
    have e : 4 * (t + 1) = 4 * t + 4 := by omega
    simp [e]

/-- Each block of the key derivation has 32 bytes (44_kdf.md R192). -/
theorem kdfFold_length (k0 : List Byte) : ∀ (n : Nat) (u t : List Byte), t.length = 32 → (kdfFold k0 n u t).length = 32
  | 0, _, _, h => h
  | n + 1, u, t, h => kdfFold_length k0 n _ _ (by simp [h])

@[simp] theorem kdfBlock_length (k0 salt : List Byte) (it i : Nat) : (kdfBlock k0 salt it i).length = 32 :=
  kdfFold_length _ _ _ _ rfl

@[simp] theorem kdfBlocks_length (k0 salt : List Byte) (it : Nat) :
    ∀ nb : Nat, (kdfBlocks k0 salt it nb).length = 32 * nb
  | 0 => rfl
  | nb + 1 => by simp [kdfBlocks, kdfBlocks_length k0 salt it nb]; omega

end Sys2Proof.Machine
end

