-- ==== Sys2Proof/Laws/Memory.lean ====
section
/-!
SUPPORT. System memory: every operation keeps the canonical form, a byte written is read back, and no other byte changes
(20_memory.md R51, R55; log entry 2).
-/
namespace Sys2Proof.Machine

/-- Raising the lower bound of the canonical form below every listed key. -/
theorem Memory.wfFrom_mono {lo lo' : Nat} (h : lo' ≤ lo) : ∀ {m : Memory}, m.wfFrom lo = true → m.wfFrom lo' = true
  | [], _ => rfl
  | (k, b) :: m, hw => by
    simp only [Memory.wfFrom, Bool.and_eq_true, decide_eq_true_eq] at hw ⊢
    exact ⟨⟨⟨by omega, hw.1.1.2⟩, hw.1.2⟩, hw.2⟩

/-- Below its lower bound a canonical memory lists nothing. -/
theorem Memory.lookup_below {lo a : Nat} (h : a < lo) : ∀ {m : Memory}, m.wfFrom lo = true → m.lookup a = unlistedByte
  | [], _ => rfl
  | (k, b) :: m, hw => by
    simp only [Memory.wfFrom, Bool.and_eq_true, decide_eq_true_eq] at hw
    have hne : ¬ k = a := by omega
    simp only [Memory.lookup, hne, if_false]
    exact Memory.lookup_below (by omega) hw.2

/-- What a memory holds after a byte is stored under a key. -/
theorem Memory.lookup_insert {lo a : Nat} {b : Byte} (a' : Nat) :
    ∀ {m : Memory}, m.wfFrom lo = true → (m.insert a b).lookup a' = if a' = a then b else m.lookup a'
  | [], _ => by
    by_cases hb : b = unlistedByte <;> by_cases ha : a = a' <;>
      simp [Memory.insert, Memory.lookup, hb, ha, eq_comm (a := a')]
  | (k, c) :: m, hw => by
    simp only [Memory.wfFrom, Bool.and_eq_true, decide_eq_true_eq] at hw
    simp only [Memory.insert]
    split
    · rename_i hlt
      by_cases ha : a' = a
      · subst ha
        have hne : ¬ k = a' := by omega
        have hrest : Memory.lookup m a' = unlistedByte := Memory.lookup_below (by omega) hw.2
        by_cases hb : b = unlistedByte <;> simp [Memory.lookup, hb, hne, hrest]
      · have hne : ¬ a = a' := fun h => ha h.symm
        by_cases hb : b = unlistedByte <;> simp [Memory.lookup, hb, ha, hne]
    · split
      · rename_i _ hk
        subst hk
        by_cases ha : a' = a
        · subst ha
          have hrest : Memory.lookup m a' = unlistedByte := Memory.lookup_below (by omega) hw.2
          by_cases hb : b = unlistedByte <;> simp [Memory.lookup, hb, hrest]
        · have hne : ¬ a = a' := fun h => ha h.symm
          by_cases hb : b = unlistedByte <;> simp [Memory.lookup, hb, ha, hne]
      · rename_i _ hk
        simp only [Memory.lookup]
        split
        · rename_i hka
          subst hka
          rw [if_neg (fun h : k = a => hk h.symm)]
        · exact Memory.lookup_insert a' hw.2

/-- Storing a byte keeps the canonical form. -/
theorem Memory.insert_wfFrom {lo a : Nat} {b : Byte} (hlo : lo ≤ a) (ha : a < 2 ^ 64) :
    ∀ {m : Memory}, m.wfFrom lo = true → (m.insert a b).wfFrom lo = true
  | [], _ => by
    by_cases hb : b = unlistedByte <;> simp [Memory.insert, Memory.wfFrom, hb, hlo]
    omega
  | (k, c) :: m, hw => by
    have hw' := hw
    simp only [Memory.wfFrom, Bool.and_eq_true, decide_eq_true_eq, bne_iff_ne] at hw
    simp only [Memory.insert]
    split
    · rename_i hlt
      split
      · exact hw'
      · rename_i hb
        simp only [Memory.wfFrom, Bool.and_eq_true, decide_eq_true_eq, bne_iff_ne]
        exact ⟨⟨⟨hlo, ha⟩, hb⟩, ⟨⟨by omega, hw.1.1.2⟩, hw.1.2⟩, hw.2⟩
    · split
      · split
        · exact Memory.wfFrom_mono (by omega) hw.2
        · rename_i _ hk hb
          subst hk
          simp only [Memory.wfFrom, Bool.and_eq_true, decide_eq_true_eq, bne_iff_ne]
          exact ⟨⟨⟨hlo, ha⟩, hb⟩, hw.2⟩
      · simp only [Memory.wfFrom, Bool.and_eq_true, decide_eq_true_eq, bne_iff_ne]
        exact ⟨⟨⟨hw.1.1.1, hw.1.1.2⟩, hw.1.2⟩, Memory.insert_wfFrom (by omega) ha hw.2⟩

/-- A byte written is read back, and no other byte changes. -/
theorem Memory.read_write {m : Memory} (hw : m.wf = true) (a a' : Addr) (b : Byte) :
    (m.write a b).read a' = if a' = a then b else m.read a' := by
  simp only [Memory.read, Memory.write, Memory.lookup_insert _ hw, BitVec.toNat_inj]

/-- A write keeps the canonical form. -/
theorem Memory.write_wf {m : Memory} (hw : m.wf = true) (a : Addr) (b : Byte) : (m.write a b).wf = true :=
  Memory.insert_wfFrom (Nat.zero_le _) a.isLt hw

/-- A sequence of writes keeps the canonical form. -/
theorem Memory.writeBytes_wf {skip : List Addr} :
    ∀ {m : Memory} (a : Addr) (v : List Byte), m.wf = true → (Memory.writeBytes skip m a v).wf = true
  | _, _, [], hw => hw
  | m, a, b :: v, hw => by
    simp only [Memory.writeBytes]
    apply Memory.writeBytes_wf
    split
    · exact hw
    · exact Memory.write_wf hw a b

/-- The address `n` above `a`, when the sum stays below 2^64. -/
theorem addr_add_toNat {a : Addr} {n : Nat} (h : a.toNat + n < 2 ^ 64) :
    (a + BitVec.ofNat 64 n).toNat = a.toNat + n := by
  have h1 : (BitVec.ofNat 64 n).toNat = n := by rw [BitVec.toNat_ofNat]; omega
  rw [BitVec.toNat_add, h1]
  omega

/-- The address after `a`, when the sum stays below 2^64. -/
theorem addr_succ_toNat {a : Addr} (h : a.toNat + 1 < 2 ^ 64) : (a + 1).toNat = a.toNat + 1 :=
  addr_add_toNat (n := 1) h

/-- Going up one byte and then `n` is going up `n + 1`. -/
theorem addr_succ_add (a : Addr) (n : Nat) : a + 1 + BitVec.ofNat 64 n = a + BitVec.ofNat 64 (n + 1) := by
  have h : BitVec.ofNat 64 (n + 1) = BitVec.ofNat 64 n + 1 := by
    apply BitVec.eq_of_toNat_eq; simp [BitVec.toNat_ofNat, BitVec.toNat_add]
  rw [h, BitVec.add_assoc, BitVec.add_comm 1]

/-- Everything a sequence of writes does: the bytes written, in order, where the address is not skipped; every other
byte as before. -/
theorem Memory.read_writeBytes {skip : List Addr} (a' : Addr) :
    ∀ {m : Memory} (a : Addr) (v : List Byte), m.wf = true → a.toNat + v.length ≤ 2 ^ 64 →
      (Memory.writeBytes skip m a v).read a' =
        if a.toNat ≤ a'.toNat ∧ a'.toNat < a.toNat + v.length ∧ a' ∉ skip then v.getD (a'.toNat - a.toNat) 0
        else m.read a'
  | m, a, [], _, _ => by
    have : ¬ (a.toNat ≤ a'.toNat ∧ a'.toNat < a.toNat + 0 ∧ a' ∉ skip) := by omega
    simp only [Memory.writeBytes, List.length_nil, this, if_false]
  | m, a, b :: v, hw, hlen => by
    simp only [List.length_cons] at hlen
    have hw' : Memory.wf (if skip.contains a then m else m.write a b) = true := by
      split
      · exact hw
      · exact Memory.write_wf hw a b
    have hfirst : Memory.read (if skip.contains a then m else m.write a b) a' =
        if a' = a ∧ a' ∉ skip then b else m.read a' := by
      by_cases ha : a' = a
      · subst ha
        by_cases hs : a' ∈ skip <;> simp [hs, Memory.read_write hw]
      · split <;> simp [ha, Memory.read_write hw]
    simp only [Memory.writeBytes]
    cases v with
    | nil =>
      simp only [Memory.writeBytes, List.length_nil, List.length_cons]
      rw [hfirst]
      have hiff : (a.toNat ≤ a'.toNat ∧ a'.toNat < a.toNat + (0 + 1) ∧ a' ∉ skip) ↔ (a' = a ∧ a' ∉ skip) := by
        constructor
        · rintro ⟨h1, h2, h3⟩
          exact ⟨BitVec.eq_of_toNat_eq (by omega), h3⟩
        · rintro ⟨rfl, h3⟩
          exact ⟨le_refl _, by omega, h3⟩
      by_cases hc : a' = a ∧ a' ∉ skip
      · rw [if_pos hc, if_pos (hiff.mpr hc), hc.1]
        simp
      · rw [if_neg hc, if_neg (fun h => hc (hiff.mp h))]
    | cons c v =>
      have hsucc : (a + 1).toNat = a.toNat + 1 := addr_succ_toNat (by simp at hlen; omega)
      rw [Memory.read_writeBytes a' (a + 1) (c :: v) hw' (by rw [hsucc]; omega), hsucc, hfirst]
      simp only [List.length_cons]
      by_cases hs : a' ∈ skip
      · simp [hs]
      · simp only [hs, not_false_eq_true, and_true]
        by_cases ha : a' = a
        · subst ha
          have h1 : ¬ (a'.toNat + 1 ≤ a'.toNat ∧ a'.toNat < a'.toNat + 1 + (v.length + 1)) := by omega
          have h2 : a'.toNat ≤ a'.toNat ∧ a'.toNat < a'.toNat + (v.length + 1 + 1) := by omega
          rw [if_neg h1, if_pos h2, if_pos rfl]
          simp
        · have hne : a'.toNat ≠ a.toNat := fun h => ha (BitVec.eq_of_toNat_eq h)
          rw [if_neg ha]
          by_cases hin : a.toNat + 1 ≤ a'.toNat ∧ a'.toNat < a.toNat + 1 + (v.length + 1)
          · have h2 : a.toNat ≤ a'.toNat ∧ a'.toNat < a.toNat + (v.length + 1 + 1) := by omega
            rw [if_pos hin, if_pos h2]
            have h3 : a'.toNat - a.toNat = (a'.toNat - (a.toNat + 1)) + 1 := by omega
            rw [h3, List.getD_cons_succ]
          · have h2 : ¬ (a.toNat ≤ a'.toNat ∧ a'.toNat < a.toNat + (v.length + 1 + 1)) := by omega
            rw [if_neg hin, if_neg h2]

/-- Everything a reset in the middle of a command does to the memory: the bytes of the range hold free values, every other
byte is as before, and the canonical form is kept. -/
theorem Memory.abandon_spec {draw : Nat} (a' : Addr) :
    ∀ {m : Memory} (a : Addr) (n : Nat), m.wf = true → a.toNat + n ≤ 2 ^ 64 →
      (Memory.abandon draw m a n).wf = true ∧
      (Memory.abandon draw m a n).read a' =
        if a.toNat ≤ a'.toNat ∧ a'.toNat < a.toNat + n then Config.abandonedByte draw a' else m.read a'
  | m, a, 0, hw, _ => by
    have : ¬ (a.toNat ≤ a'.toNat ∧ a'.toNat < a.toNat + 0) := by omega
    simp only [Memory.abandon, this, if_false]
    exact ⟨hw, trivial⟩
  | m, a, n + 1, hw, hlen => by
    have hw' := Memory.write_wf hw a (Config.abandonedByte draw a)
    simp only [Memory.abandon]
    cases n with
    | zero =>
      refine ⟨hw', ?_⟩
      simp only [Memory.abandon]
      rw [Memory.read_write hw]
      by_cases ha : a' = a
      · subst ha
        rw [if_pos rfl, if_pos (by omega)]
      · have hne : a'.toNat ≠ a.toNat := fun h => ha (BitVec.eq_of_toNat_eq h)
        rw [if_neg ha, if_neg (by omega)]
    | succ n =>
      have hsucc : (a + 1).toNat = a.toNat + 1 := addr_succ_toNat (by omega)
      have ih := Memory.abandon_spec (draw := draw) a' (a + 1) (n + 1) hw' (by rw [hsucc]; omega)
      refine ⟨ih.1, ?_⟩
      rw [ih.2, hsucc, Memory.read_write hw]
      by_cases ha : a' = a
      · subst ha
        rw [if_neg (by omega), if_pos rfl, if_pos (by omega)]
      · have hne : a'.toNat ≠ a.toNat := fun h => ha (BitVec.eq_of_toNat_eq h)
        rw [if_neg ha]
        by_cases hin : a.toNat + 1 ≤ a'.toNat ∧ a'.toNat < a.toNat + 1 + (n + 1)
        · rw [if_pos hin, if_pos (by omega)]
        · rw [if_neg hin, if_neg (by omega)]

end Sys2Proof.Machine
end

