-- ==== Sys2Proof/Laws/Host.lean ====
section
/-!
SUPPORT. What one host operation can do, said once (10_state.md R25 to R34; 20_memory.md R65; 70_reset_and_hazards.md R240,
R241).
-/
namespace Sys2Proof.Machine

/-- Everything a host operation that gives a next state can have done. -/
theorem State.hostOperation_cases {s t : State} {op : HostOp} (h : s.hostOperation op = .next t) :
    (∃ off v, op = .wr off .word v ∧ off.toNat % 4 = 0 ∧ t = s.hostWrite (regAt off) v) ∨
    (∃ off, op = .rd off .word ∧ off.toNat % 4 = 0 ∧ t = s.hostRead (regAt off)) ∨
    (op = .wait ∧ ∃ l, t = { s.hostRead .status with hostOps := l }) ∨
    (op = .waitIrq ∧ ∃ l, t = { s with hostOps := l }) ∨
    (∃ a b, op = .store a b ∧ s.hostStore a b = .next t) ∨
    (∃ a, op = .load a ∧ s.hostLoad a = .next t) ∨
    (op = .assertReset ∧ t = s.assertReset) := by
  cases op with
  | wr off size v =>
    simp only [State.hostOperation] at h
    split at h
    · rename_i hw
      simp only [windowAccessOk, Bool.and_eq_true, decide_eq_true_eq] at hw
      obtain ⟨rfl, hal⟩ := hw
      cases h
      exact .inl ⟨off, v, rfl, hal, rfl⟩
    · cases h
  | rd off size =>
    simp only [State.hostOperation] at h
    split at h
    · rename_i hw
      simp only [windowAccessOk, Bool.and_eq_true, decide_eq_true_eq] at hw
      obtain ⟨rfl, hal⟩ := hw
      cases h
      exact .inr (.inl ⟨off, rfl, hal, rfl⟩)
    · cases h
  | wait =>
    simp only [State.hostOperation] at h
    split at h <;> cases h
    · exact .inr (.inr (.inl ⟨rfl, s.hostOps, rfl⟩))
    · exact .inr (.inr (.inl ⟨rfl, _, rfl⟩))
  | waitIrq =>
    simp only [State.hostOperation] at h
    split at h <;> cases h
    · exact .inr (.inr (.inr (.inl ⟨rfl, s.hostOps, rfl⟩)))
    · exact .inr (.inr (.inr (.inl ⟨rfl, _, rfl⟩)))
  | store a b => exact .inr (.inr (.inr (.inr (.inl ⟨a, b, rfl, h⟩))))
  | load a => exact .inr (.inr (.inr (.inr (.inr (.inl ⟨a, rfl, h⟩)))))
  | assertReset =>
    cases h
    exact .inr (.inr (.inr (.inr (.inr (.inr ⟨rfl, rfl⟩)))))

/-- An aligned 32-bit write reaches its register. -/
theorem State.hostOperation_wr (s : State) {off : Offset} (v : Word) (h : off.toNat % 4 = 0) :
    s.hostOperation (.wr off .word v) = .next (s.hostWrite (regAt off) v) := by
  simp [State.hostOperation, windowAccessOk, h]

/-- An aligned 32-bit read reaches its register. -/
theorem State.hostOperation_rd (s : State) {off : Offset} (h : off.toNat % 4 = 0) :
    s.hostOperation (.rd off .word) = .next (s.hostRead (regAt off)) := by
  simp [State.hostOperation, windowAccessOk, h]

/-- While idle every register write takes effect. -/
theorem State.hostWrite_idle {s : State} (h : s.busy = false) (r : Reg) (v : Word) :
    s.hostWrite r v = s.applyWrite r v := by
  simp [State.hostWrite, h]

/-- While a command runs a write to a guarded register is dropped. -/
theorem State.hostWrite_dropped {s : State} (h : s.busy = true) {r : Reg} (hr : r.guarded = true) (v : Word) :
    s.hostWrite r v = { s with werr := true } := by
  simp [State.hostWrite, h, hr]

/-- A write to a register that is not guarded takes effect at any time. -/
theorem State.hostWrite_unguarded (s : State) {r : Reg} (hr : r.guarded = false) (v : Word) :
    s.hostWrite r v = s.applyWrite r v := by
  simp [State.hostWrite, hr]

/-- While idle a register reads its value. -/
theorem State.readReg_idle {s : State} (h : s.busy = false) (r : Reg) : s.readReg r = s.idleRead r := by
  simp [State.readReg, h]

/-- While a command runs a register reads with a free word at hand. -/
theorem State.readReg_busy {s : State} (h : s.busy = true) (r : Reg) :
    s.readReg r = s.busyRead (Config.freeWord s.draws) r := by
  simp [State.readReg, h]

/-- While idle no command owns a byte. -/
theorem State.ownedOutput_idle {s : State} (h : s.busy = false) (a : Addr) : s.ownedOutput a = false := by
  simp [State.ownedOutput, State.runningOutput, h]

/-- While idle no command owns a byte. -/
theorem State.ownedInput_idle {s : State} (h : s.busy = false) (a : Addr) : s.ownedInput a = false := by
  simp [State.ownedInput, State.runningInputs, h]

/-- Everything a host write to system memory that gives a next state can have done. -/
theorem State.hostStore_cases {s t : State} {a : Addr} {b : Byte} (h : s.hostStore a b = .next t) :
    (s.ownedOutput a = true ∧ t = { s with
      mem := s.mem.write a (Config.freeByte s.draws), races := s.races.insert a, draws := s.draws + 1 }) ∨
    (s.ownedOutput a = false ∧ s.ownedInput a = true ∧
      t = { s with mem := s.mem.write a b, races := s.races.insert a }) ∨
    (s.ownedOutput a = false ∧ s.ownedInput a = false ∧ t = { s with mem := s.mem.write a b }) := by
  unfold State.hostStore at h
  split at h
  · cases h
  split at h
  · cases h
  split at h
  · cases h
    simp_all
  split at h
  · cases h
    simp_all
  · cases h
    simp_all

/-- Everything a host read of system memory that gives a next state can have done. -/
theorem State.hostLoad_cases {s t : State} {a : Addr} (h : s.hostLoad a = .next t) :
    ∃ b n, t = { s with mdata := b, draws := n } := by
  unfold State.hostLoad at h
  split at h
  · cases h
  split at h
  · cases h
  split at h
  · cases h
    exact ⟨_, _, rfl⟩
  · cases h
    exact ⟨_, s.draws, rfl⟩

/-- Everything a register write can have done. -/
theorem State.hostWrite_cases (s : State) (r : Reg) (v : Word) :
    (s.busy = true ∧ s.hostWrite r v = { s with werr := true }) ∨
    (s.busy = false ∧ r = .cmd ∧ s.hostWrite r v = s.accept v) ∨
    (s.busy = false ∧ (∃ p, s.hostWrite r v = { s with params := p })) ∨
    (s.busy = false ∧ (∃ i, r = .h i ∧ s.hostWrite r v = { s with hstate := s.hstate.set i v })) ∨
    s.hostWrite r v = s.writeStatus v ∨ s.hostWrite r v = s.writeCtrl v ∨ s.hostWrite r v = s := by
  cases hb : s.busy <;> cases r <;> simp [State.hostWrite, State.applyWrite, Reg.guarded, hb]

/-- What reset leaves of the memory, byte by byte. -/
theorem State.memAfterReset_spec {s : State} (hw : s.mem.wf = true) (a : Addr) :
    s.memAfterReset.wf = true ∧
    s.memAfterReset.read a = if s.ownedOutput a then Config.abandonedByte s.draws a else s.mem.read a := by
  unfold State.memAfterReset State.ownedOutput
  cases s.runningOutput with
  | none => exact ⟨hw, by simp⟩
  | some r =>
    have hb := r.base.isLt
    have hsp := Memory.abandon_spec (draw := s.draws) a r.base (min r.len.toNat (2 ^ 64 - r.base.toNat)) hw (by omega)
    refine ⟨hsp.1, ?_⟩
    rw [hsp.2]
    have ha := a.isLt
    by_cases hc : r.base.toNat ≤ a.toNat ∧ a.toNat < r.base.toNat + r.len.toNat
    · rw [if_pos (by omega)]
      simp [Region.covers, hc]
    · rw [if_neg (by omega)]
      have : r.covers a = false := by
        simp only [Region.covers, Bool.and_eq_false_iff, decide_eq_false_iff_not]
        omega
      simp [this]

end Sys2Proof.Machine
end

