-- ==== Sys2Proof/Laws/Operands.lean ====
section
/-!
SUPPORT. Regions and the bytes the engine reads from them (20_memory.md R52 to R55).
-/
namespace Sys2Proof.Machine

/-- Which addresses a region names. -/
@[simp] theorem Region.covers_iff (r : Region) (a : Addr) :
    r.covers a = true ↔ r.base.toNat ≤ a.toNat ∧ a.toNat < r.base.toNat + r.len.toNat := by
  simp [Region.covers]

/-- Which addresses a region does not name. -/
@[simp] theorem Region.covers_false_iff (r : Region) (a : Addr) :
    r.covers a = false ↔ ¬ (r.base.toNat ≤ a.toNat ∧ a.toNat < r.base.toNat + r.len.toNat) := by
  rw [← Region.covers_iff, Bool.not_eq_true]

/-- Well-formedness, as a fact about numbers. -/
@[simp] theorem Region.wellFormed_iff (r : Region) :
    r.wellFormed = true ↔ r.base.toNat + r.len.toNat ≤ 2 ^ 64 := by
  simp [Region.wellFormed]

/-- Overlap, as a fact about numbers (20_memory.md R54). -/
theorem Region.overlaps_iff (r1 r2 : Region) :
    r1.overlaps r2 = true ↔ 0 < r1.len.toNat ∧ 0 < r2.len.toNat ∧
      r1.base.toNat < r2.base.toNat + r2.len.toNat ∧ r2.base.toNat < r1.base.toNat + r1.len.toNat := by
  simp [Region.overlaps, and_assoc]

/-- A property of every byte, by index. -/
theorem everyByte_iff (p : Addr → Bool) :
    ∀ (n : Nat) (a : Addr), everyByte p a n = true ↔ ∀ i, i < n → p (a + BitVec.ofNat 64 i) = true
  | 0, a => by simp [everyByte]
  | n + 1, a => by
    simp only [everyByte, Bool.and_eq_true, everyByte_iff p n, addr_succ_add]
    constructor
    · rintro ⟨h0, h⟩ i hi
      cases i with
      | zero => simpa using h0
      | succ i => exact h i (by omega)
    · intro h
      exact ⟨by simpa using h 0 (by omega), fun i hi => h (i + 1) (by omega)⟩

/-- A property of every byte of a well-formed region, by address. -/
theorem everyByte_region (p : Addr → Bool) {r : Region} (hw : r.base.toNat + r.len.toNat ≤ 2 ^ 64) :
    everyByte p r.base r.len.toNat = true ↔ ∀ a : Addr, r.covers a = true → p a = true := by
  rw [everyByte_iff]
  constructor
  · intro h a ha
    rw [Region.covers_iff] at ha
    have hi := h (a.toNat - r.base.toNat) (by omega)
    have : r.base + BitVec.ofNat 64 (a.toNat - r.base.toNat) = a := by
      apply BitVec.eq_of_toNat_eq
      rw [addr_add_toNat (by have := a.isLt; omega)]
      omega
    rwa [this] at hi
  · intro h i hi
    apply h
    rw [Region.covers_iff, addr_add_toNat (by omega)]
    omega

/-- A well-formed region is mapped iff every address it names exists. -/
theorem State.mapped_iff {s : State} {r : Region} (hw : r.base.toNat + r.len.toNat ≤ 2 ^ 64) :
    s.mapped r = true ↔ ∀ a : Addr, r.covers a = true → s.mappedAddr a = true :=
  everyByte_region _ hw

/-- A well-formed region is admitted iff no address it names is a device's. -/
theorem State.admits_iff {s : State} {r : Region} (hw : r.base.toNat + r.len.toNat ≤ 2 ^ 64) :
    s.admits r = true ↔ ∀ a : Addr, r.covers a = true → s.deviceAddr a = false := by
  unfold State.admits
  rw [everyByte_region _ hw]
  simp

/-- A usable region passes the three checks of a meaning. -/
theorem State.Usable.checks {s : State} {r : Region} (h : s.Usable r) :
    r.wellFormed = true ∧ s.mapped r = true ∧ s.admits r = true :=
  ⟨(Region.wellFormed_iff r).mpr h.1, (State.mapped_iff h.1).mpr h.2.1, (State.admits_iff h.1).mpr h.2.2⟩

/-- The number of bytes read. -/
@[simp] theorem State.memRead_length (s : State) (p : Nat) : ∀ (n : Nat) (a : Addr), (s.memRead p a n).length = n
  | 0, _ => rfl
  | n + 1, a => by simp [State.memRead, State.memRead_length s p n]

/-- The number of bytes of a region. -/
@[simp] theorem State.readRegion_length (s : State) (p : Nat) (r : Region) :
    (s.readRegion p r).length = r.len.toNat := by
  simp [State.readRegion]

/-- Reading `n` bytes is reading each in turn (20_memory.md R55). -/
theorem State.memRead_eq (s : State) (p : Nat) :
    ∀ (n : Nat) (a : Addr), s.memRead p a n = byteRange (s.inputByte p) a n
  | 0, _ => rfl
  | n + 1, a => by
    rw [State.memRead, State.memRead_eq s p n]
    simp only [byteRange, List.range_succ_eq_map, List.map_cons, List.map_map, Function.comp_def, addr_succ_add]
    simp

/-- The source region's bytes. -/
theorem State.readRegion_src (s : State) : s.readRegion 0 s.snap.src = s.srcBytes := State.memRead_eq s 0 _ _

/-- The auxiliary region's bytes. -/
theorem State.readRegion_aux (s : State) : s.readRegion 1 s.snap.aux = s.auxBytes := State.memRead_eq s 1 _ _

/-- The number of bytes of a range. -/
@[simp] theorem byteRange_length (f : Addr → Byte) (a : Addr) (n : Nat) : (byteRange f a n).length = n := by
  simp [byteRange]

/-- The number of source bytes. -/
@[simp] theorem State.srcBytes_length (s : State) : s.srcBytes.length = s.snap.srcLen.toNat := byteRange_length _ _ _

/-- The number of auxiliary bytes. -/
@[simp] theorem State.auxBytes_length (s : State) : s.auxBytes.length = s.snap.auxLen.toNat := byteRange_length _ _ _

/-- What a store into a region does: the canonical form is kept and the memory is the one `Stored` describes. -/
theorem State.memWrite_stored {s : State} {r : Region} {v : List Byte} (hw : s.mem.wf = true)
    (hr : r.base.toNat + r.len.toNat ≤ 2 ^ 64) (hv : v.length = r.len.toNat) :
    (s.memWrite r.base v).wf = true ∧ s.Stored r v (s.memWrite r.base v) := by
  refine ⟨Memory.writeBytes_wf _ _ hw, hv, ?_, ?_⟩
  · intro i hi hs
    rw [State.memWrite, Memory.read_writeBytes _ _ _ hw (by omega), addr_add_toNat (by omega),
      if_pos ⟨by omega, by omega, hs⟩, Nat.add_sub_cancel_left]
  · intro a ha
    rw [State.memWrite, Memory.read_writeBytes _ _ _ hw (by omega), if_neg]
    rintro ⟨h1, h2, h3⟩
    rcases ha with ha | ha
    · rw [Region.covers_false_iff] at ha
      omega
    · exact h3 ha

/-- A well-formed region is not mapped iff some address it names does not exist. -/
theorem State.mapped_false_iff {s : State} {r : Region} (hw : r.base.toNat + r.len.toNat ≤ 2 ^ 64) :
    s.mapped r = false ↔ ∃ a : Addr, r.covers a = true ∧ s.mappedAddr a = false := by
  rw [← Bool.not_eq_true, State.mapped_iff hw]
  push Not
  simp only [Bool.not_eq_true, ne_eq]

/-- A well-formed region is not admitted iff some address it names is a device's. -/
theorem State.admits_false_iff {s : State} {r : Region} (hw : r.base.toNat + r.len.toNat ≤ 2 ^ 64) :
    s.admits r = false ↔ ∃ a : Addr, r.covers a = true ∧ s.deviceAddr a = true := by
  rw [← Bool.not_eq_true, State.admits_iff hw]
  push Not
  simp only [Bool.not_eq_false, ne_eq]

end Sys2Proof.Machine
end

