-- ==== Sys2Proof/Laws/PerInstr.lean ====
section
/-!
SUPPORT. Statements about every command as syntax, one lemma per constructor (30_encoding.md R70 to R72).
-/
namespace Sys2Proof.Laws.Encoding

/-- The command is well-formed, its word is its OPCODE with 0 in bits 31:8, and the decoder gives the command back from that
word as the opcode table numbers it. -/
def Statement (i : Instr) : Prop :=
  i.wellFormed = true ∧ (encode i).toNat = i.opcode.toNat ∧ decodeTableWord 32 i.opcode.toNat = some i

theorem nop : Statement .nop := by unfold Statement; decide
theorem init : Statement .init := by unfold Statement; decide
theorem update : Statement .update := by unfold Statement; decide
theorem final : Statement .final := by unfold Statement; decide
theorem compress : Statement .compress := by unfold Statement; decide
theorem hash : Statement .hash := by unfold Statement; decide
theorem hmacKey : Statement .hmacKey := by unfold Statement; decide
theorem hmacMac : Statement .hmacMac := by unfold Statement; decide
theorem kdf : Statement .kdf := by unfold Statement; decide

end Sys2Proof.Laws.Encoding
end

