-- ==== Sys2Proof/Laws/Run.lean ====
section
/-!
SUPPORT. The end of a run and what is observed then (70_reset_and_hazards.md R255).
-/
namespace Sys2Proof.Machine

/-- A run has ended when no operation is left and no command runs. -/
theorem State.ended_iff (s : State) : s.ended = true ↔ s.hostOps = [] ∧ s.busy = false := by
  simp [State.ended]

/-- The observation lists every register of the window. -/
theorem mem_windowRegs {r : Reg} (h : r ≠ .reserved) : r ∈ windowRegs := by
  cases r with
  | reserved => exact absurd rfl h
  | h i => revert i; decide
  | _ => decide

/-- Two observations are equal when the memories are and every listed register reads alike. -/
theorem State.observe_eq_iff (s t : State) :
    s.observe = t.observe ↔ s.mem = t.mem ∧ ∀ r ∈ windowRegs, s.idleRead r = t.idleRead r := by
  simp [State.observe]

@[simp] theorem State.endOfRun_of_ended {s : State} (h : s.ended = true) : s.endOfRun = some s.observe := by
  simp [State.endOfRun, h]

/-- The key context when a key is set. -/
@[simp] theorem State.keyContext_set {s : State} (h : s.kvalid = true) : s.keyContext = some s.key := by
  simp [State.keyContext, h]

/-- The key context when none is set does not show the key block (10_state.md R38). -/
@[simp] theorem State.keyContext_unset {s : State} (h : s.kvalid = false) : s.keyContext = none := by
  simp [State.keyContext, h]

end Sys2Proof.Machine
end

