-- ==== Sys2Proof/Laws/Step.lean ====
section
/-!
SUPPORT. Whose turn it is, and what one step can do, said once.
-/
namespace Sys2Proof.Machine

/-- The engine moves and a command runs: the step is the engine's move on the state with the turn taken. -/
theorem State.turn_engine {s : State} (h : s.EngineMoves) : s.turn = (.engine, s.turnTaken) := by
  unfold State.turn
  rcases h with h | ⟨h, hb⟩
  · cases hs : s.sched with
    | nil => simp [hs] at h
    | cons a rest =>
      simp only [hs, List.head?_cons, Option.some.injEq] at h
      simp [State.turnTaken, hs, h]
  · have ht : s.turnTaken = s := by
      cases s
      simp only at h
      subst h
      rfl
    rw [h, ht]
    simp [hb]

/-- The host moves: the step is the host's move on the state with the turn taken. -/
theorem State.turn_host {s : State} (h : s.HostMoves) : s.turn = (.host, s.turnTaken) := by
  unfold State.turn
  rcases h with h | ⟨h, hb⟩
  · cases hs : s.sched with
    | nil => simp [hs] at h
    | cons a rest =>
      simp only [hs, List.head?_cons, Option.some.injEq] at h
      simp [State.turnTaken, hs, h]
  · have ht : s.turnTaken = s := by
      cases s
      simp only at h
      subst h
      rfl
    rw [h, ht]
    simp [hb]

/-- Someone always moves. -/
theorem State.moves_cases (s : State) : s.EngineMoves ∨ s.HostMoves := by
  unfold State.EngineMoves State.HostMoves
  cases s.sched with
  | nil => cases s.busy <;> simp
  | cons a rest => cases a <;> simp

theorem step_engine {s : State} (h : s.EngineMoves) : step s = s.turnTaken.engineMove := by
  simp only [step, State.turn_engine h]

theorem step_host {s : State} (h : s.HostMoves) : step s = s.turnTaken.hostMove := by
  simp only [step, State.turn_host h]

/-- The host's move when it has an operation. -/
theorem State.hostMove_cons {s : State} {op : HostOp} {rest : List HostOp} (h : s.hostOps = op :: rest) :
    s.turnTaken.hostMove = s.opTaken.hostOperation op := by
  simp only [State.hostMove, State.turnTaken_hostOps, h]
  simp [State.turnTaken, State.opTaken, h]

/-- The engine has nothing to do while no command runs. -/
theorem State.engineMove_idle {s : State} (h : s.busy = false) : s.engineMove = .next s := by
  simp [State.engineMove, h]

/-- The engine's move on a command. -/
theorem State.engineMove_ok {s : State} {i : Instr} (h : s.busy = true) (hd : decode s.cmd = .ok i) :
    s.engineMove = exec i s := by
  simp [State.engineMove, State.currentCommand, h, hd]

/-- The engine's move on an illegal word. -/
theorem State.engineMove_error {s : State} {e : IllegalWord} (h : s.busy = true) (hd : decode s.cmd = .error e) :
    s.engineMove = .next (s.complete 0x04) := by
  simp only [State.engineMove, State.currentCommand, h, hd, if_true]
  rfl

/-- Everything a step that gives a next state can have done. -/
theorem step_cases {s t : State} (h : step s = .next t) :
    (s.EngineMoves ∧ s.busy = true ∧ ∃ i, decode s.cmd = .ok i ∧ exec i s.turnTaken = .next t) ∨
    (s.EngineMoves ∧ s.busy = true ∧ (∃ e, decode s.cmd = .error e) ∧ t = s.turnTaken.complete 0x04) ∨
    (s.HostMoves ∧ ∃ op rest, s.hostOps = op :: rest ∧ s.opTaken.hostOperation op = .next t) ∨
    t = s.turnTaken := by
  rcases s.moves_cases with hm | hm
  · rw [step_engine hm] at h
    cases hb : s.busy with
    | false =>
      rw [State.engineMove_idle (s := s.turnTaken) hb] at h
      cases h
      exact .inr (.inr (.inr rfl))
    | true =>
      cases hd : decode s.cmd with
      | ok i =>
        rw [State.engineMove_ok (s := s.turnTaken) hb hd] at h
        exact .inl ⟨hm, rfl, i, rfl, h⟩
      | error e =>
        rw [State.engineMove_error (s := s.turnTaken) hb hd] at h
        cases h
        exact .inr (.inl ⟨hm, rfl, ⟨e, rfl⟩, rfl⟩)
  · rw [step_host hm] at h
    cases ho : s.hostOps with
    | nil =>
      simp only [State.hostMove, State.turnTaken_hostOps, ho] at h
      cases h
      exact .inr (.inr (.inr rfl))
    | cons op rest =>
      rw [State.hostMove_cons ho] at h
      exact .inr (.inr (.inl ⟨hm, op, rest, rfl, h⟩))

end Sys2Proof.Machine
end

