-- ==== Sys2Proof/Laws/Window.lean ====
section
/-!
SUPPORT. The halves of a 64-bit register pair and the fields of STATUS (10_state.md R25, R27; 30_encoding.md R74).
-/
namespace Sys2Proof.Machine

/-- The LO half is the value modulo 2^32. -/
theorem loHalf_toNat (d : DWord) : (loHalf d).toNat = d.toNat % 2 ^ 32 := by
  simp [loHalf, BitVec.extractLsb'_toNat]

/-- The HI half is the value divided by 2^32. -/
theorem hiHalf_toNat (d : DWord) : (hiHalf d).toNat = d.toNat / 2 ^ 32 := by
  have := d.isLt
  simp [hiHalf, BitVec.extractLsb'_toNat, Nat.shiftRight_eq_div_pow]
  omega

@[simp] theorem loHalf_setLo (d : DWord) (v : Word) : loHalf (setLo d v) = v := by
  apply BitVec.eq_of_getLsbD_eq
  intro i hi
  simp only [loHalf, setLo, BitVec.getLsbD_extractLsb', BitVec.getLsbD_append]
  simp [hi]

@[simp] theorem hiHalf_setLo (d : DWord) (v : Word) : hiHalf (setLo d v) = hiHalf d := by
  apply BitVec.eq_of_getLsbD_eq
  intro i hi
  simp only [setLo, hiHalf, BitVec.getLsbD_extractLsb', BitVec.getLsbD_append]
  simp [hi]

@[simp] theorem loHalf_setHi (d : DWord) (v : Word) : loHalf (setHi d v) = loHalf d := by
  apply BitVec.eq_of_getLsbD_eq
  intro i hi
  simp only [loHalf, setHi, BitVec.getLsbD_extractLsb', BitVec.getLsbD_append]
  simp [hi]

@[simp] theorem hiHalf_setHi (d : DWord) (v : Word) : hiHalf (setHi d v) = v := by
  apply BitVec.eq_of_getLsbD_eq
  intro i hi
  simp only [loHalf, setHi, hiHalf, BitVec.getLsbD_extractLsb', BitVec.getLsbD_append]
  simp [hi]

/-- Every field of a packed status word reads back (10_state.md R27). -/
theorem packStatus_fields (b d w p k : Bool) (l : BitVec 6) (e : BitVec 8) :
    (packStatus b d w p k l e).getLsbD 0 = b ∧ (packStatus b d w p k l e).getLsbD 1 = d ∧
    (packStatus b d w p k l e).getLsbD 2 = w ∧ (packStatus b d w p k l e).getLsbD 3 = p ∧
    (packStatus b d w p k l e).getLsbD 4 = k ∧ (packStatus b d w p k l e).extractLsb' 8 6 = l ∧
    (packStatus b d w p k l e).extractLsb' 16 8 = e := by
  unfold packStatus
  refine ⟨?_, ?_, ?_, ?_, ?_, ?_, ?_⟩
  iterate 5 simp only [BitVec.getLsbD_append, BitVec.getLsbD_ofBool]; simp
  all_goals
    apply BitVec.eq_of_getLsbD_eq
    intro i hi
    simp only [BitVec.getLsbD_extractLsb', BitVec.getLsbD_append, BitVec.getLsbD_ofBool, BitVec.ofNat_eq_ofNat,
      BitVec.getLsbD_zero]
    interval_cases i <;> simp

/-- The reserved bits of a packed status word are 0 (10_state.md R27, R33). -/
theorem packStatus_reserved (b d w p k : Bool) (l : BitVec 6) (e : BitVec 8) :
    (packStatus b d w p k l e).extractLsb' 5 3 = 0 ∧ (packStatus b d w p k l e).extractLsb' 14 2 = 0 ∧
    (packStatus b d w p k l e).extractLsb' 24 8 = 0 := by
  unfold packStatus
  refine ⟨?_, ?_, ?_⟩
  all_goals
    apply BitVec.eq_of_getLsbD_eq
    intro i hi
    simp only [BitVec.getLsbD_extractLsb', BitVec.getLsbD_append, BitVec.getLsbD_ofBool, BitVec.ofNat_eq_ofNat,
      BitVec.getLsbD_zero]
    interval_cases i <;> simp

end Sys2Proof.Machine
end

