-- ==== Sys2Proof/Tests/Slice0.lean ====
section
/-!
SUPPORT. Tests: the checks of WellFormed, the decoding of each word of the opcode map, one or two single steps of every command
with results from 95_test_vectors.md, and a witness for the hypotheses of every statement that has any.
-/
namespace Sys2Proof.Tests

open Sys2Proof Sys2Proof.Machine

/-! ### WellFormed and decoding (30_encoding.md R70 to R73) -/

theorem test_wellFormed_refuses_reserved_bits : (RawCommand.mk 0x08 0x000001).wellFormed = false := by decide
theorem test_wellFormed_refuses_unknown_opcode : (RawCommand.mk 0x09 0x000000).wellFormed = false := by decide
theorem test_wellFormed_admits_kdf : (RawCommand.mk 0x08 0x000000).wellFormed = true := by decide

theorem test_decode_nop : decode 0b00000000000000000000000000000000 = .ok .nop := by decide
theorem test_decode_init : decode 0b00000000000000000000000000000001 = .ok .init := by decide
theorem test_decode_update : decode 0b00000000000000000000000000000010 = .ok .update := by decide
theorem test_decode_final : decode 0b00000000000000000000000000000011 = .ok .final := by decide
theorem test_decode_compress : decode 0b00000000000000000000000000000100 = .ok .compress := by decide
theorem test_decode_hash : decode 0b00000000000000000000000000000101 = .ok .hash := by decide
theorem test_decode_hmacKey : decode 0b00000000000000000000000000000110 = .ok .hmacKey := by decide
theorem test_decode_hmacMac : decode 0b00000000000000000000000000000111 = .ok .hmacMac := by decide
theorem test_decode_kdf : decode 0b00000000000000000000000000001000 = .ok .kdf := by decide
theorem test_decode_bit8 : decode 0b00000000000000000000000100001000 = .error .reservedBits := by decide
theorem test_decode_bit31 : decode 0b10000000000000000000000000000010 = .error .reservedBits := by decide
theorem test_decode_bit4 : decode 0b00000000000000000000000000010000 = .error .unknownOpcode := by decide

/-! ### The state the tests start from

The platform of 95_test_vectors.md 2.9: `MAPPED` below 0x10000, "password" at 0x1000, "salt" at 0x1100, `0b*20` at 0x1200;
besides, "abc" at 0x1300 and "Hi There" at 0x1310. A command runs. -/

/-- The bytes of `v` from address `a` upward. -/
def cells (a : Nat) : List Byte → Memory
  | [] => []
  | b :: v => (a, b) :: cells (a + 1) v

def password : List Byte := [0x70, 0x61, 0x73, 0x73, 0x77, 0x6F, 0x72, 0x64]
def salt : List Byte := [0x73, 0x61, 0x6C, 0x74]
def abc : List Byte := [0x61, 0x62, 0x63]
def hiThere : List Byte := [0x48, 0x69, 0x20, 0x54, 0x68, 0x65, 0x72, 0x65]

def image : Memory :=
  cells 0x1000 password ++ cells 0x1100 salt ++ cells 0x1200 (List.replicate 20 0x0B) ++ cells 0x1300 abc ++
    cells 0x1310 hiThere

/-- A command word accepted from reset with these parameters, the memory being `image`. -/
def running (w : Word) (p : Params) : State := State.accept { State.reset with mem := image, params := p } w

/-- The same, with the key context of M-1 (43_hmac.md R171). -/
def keyed (w : Word) (p : Params) : State :=
  { running w p with key := List.replicate 20 0x0B ++ zeros 44, kvalid := true }

/-- The same, after UPDATE "abc" (S-4, S-5). -/
def fed (w : Word) (p : Params) : State := { running w p with buf := abc, cnt := 24 }

/-- No command runs, and the host has these operations to come. -/
def idleWith (ops : List HostOp) : State := { State.reset with hostOps := ops }

/-- One range of plain memory, and a device above it. -/
def deviceMap : List Range := [⟨0, 0x10000, .memory⟩, ⟨0x20000, 0x100, .device⟩]

/-- What a next state holds; `d` where there is none. -/
def seen {α : Type} (d : α) (f : State → α) (o : StepOutcome) : α :=
  match o with
  | .next t => f t
  | .fault _ => d
  | .refused _ => d

/-- The answer is a next state. -/
def answers (o : StepOutcome) : Bool := seen false (fun _ => true) o

/-- The error code of the next state, 0xFF where there is none. -/
def codeOf (o : StepOutcome) : BitVec 8 := seen 0xFF State.err o

theorem exists_next {o : StepOutcome} (h : answers o = true) : ∃ t, o = .next t := by
  cases o with
  | next t => exact ⟨t, rfl⟩
  | fault _ => cases h
  | refused _ => cases h

theorem exists_next_code {o : StepOutcome} {c : BitVec 8} (h : answers o = true) (hc : codeOf o = c) :
    ∃ t, o = .next t ∧ t.err = c := by
  obtain ⟨t, rfl⟩ := exists_next h
  exact ⟨t, rfl, hc⟩

/-- A region that passes the three checks is usable. -/
theorem usable_of_checks {s : State} {r : Region} (h1 : r.wellFormed = true) (h2 : s.mapped r = true)
    (h3 : s.admits r = true) : s.Usable r := by
  have h := (Region.wellFormed_iff r).mp h1
  exact ⟨h, (State.mapped_iff h).mp h2, (State.admits_iff h).mp h3⟩

/-! ### One step of each command -/

/-- R-2: NOP leaves STATUS 0x00000002. -/
theorem test_nop_status : seen 0 (fun t => t.readReg .status) (exec .nop (running 0 Params.zero)) = 0x00000002 := by
  decide

/-- S-11: INIT empties the buffer and the counter. -/
theorem test_init_resets : seen ([0], 1) (fun t => (t.buf, t.cnt)) (exec .init (fed 1 Params.zero)) = ([], 0) := by
  decide

/-- S-4, S-5: UPDATE of the source bytes 0x62, 0x63 after 0x61. -/
theorem test_update_appends :
    seen ([], 0) (fun t => (t.buf, t.cnt))
      (exec .update { running 2 ⟨0x1301, 2, 0, 0, 0, 0, 0⟩ with buf := [0x61], cnt := 8 }) = (abc, 24) := by
  decide

/-- E-23: a counter and a length that exceed LMAX. -/
theorem test_update_too_long : codeOf (exec .update (running 2 ⟨0, 0x2000000000000000, 0, 0, 0, 0, 0⟩)) = 0x02 := by
  decide

/-- S-5, L1-2: FINAL after "abc" writes the digest; bytes 0 and 31, the state word 0. -/
theorem test_final_abc :
    seen (0, 0, 0) (fun t => (t.mem.read 0x2000, t.mem.read 0x201F, t.hstate.h0))
      (exec .final (fed 3 ⟨0, 0, 0, 0, 0x2000, 0, 0⟩)) = (0xBA, 0xAD, 0xBA7816BF) := by
  decide +kernel

/-- E-9: a second FINAL, whatever its region. -/
theorem test_final_sequence :
    codeOf (exec .final { running 3 ⟨0, 0, 0, 0, 0xFFFFFFFFFFFFFFFF, 0, 0⟩ with phase := .finalized }) = 0x05 := by
  decide

/-- C-2: COMPRESS of 64 zero bytes; words 0 and 7. -/
theorem test_compress_zeros :
    seen (0, 0) (fun t => (t.hstate.h0, t.hstate.h7)) (exec .compress (running 4 ⟨0x3000, 64, 0, 0, 0, 0, 0⟩)) =
      (0xDA5698BE, 0x1837A9D8) := by
  decide +kernel

/-- E-18: a length of 63. -/
theorem test_compress_length : codeOf (exec .compress (running 4 ⟨0x1000, 63, 0, 0, 0, 0, 0⟩)) = 0x01 := by
  decide

/-- L1-2: HASH of "abc"; bytes 0 and 31. -/
theorem test_hash_abc :
    seen (0, 0) (fun t => (t.mem.read 0x2000, t.mem.read 0x201F))
      (exec .hash (running 5 ⟨0x1300, 3, 0, 0, 0x2000, 0, 0⟩)) = (0xBA, 0xAD) := by
  decide +kernel

/-- E-13: the output meets the input in its last byte. -/
theorem test_hash_overlap : codeOf (exec .hash (running 5 ⟨0x1000, 8, 0, 0, 0x0FE9, 0, 0⟩)) = 0x01 := by
  decide

/-- M-1: the key block of `0b*20`. -/
theorem test_hmacKey_short :
    seen ([], false) (fun t => (t.key, t.kvalid)) (exec .hmacKey (running 6 ⟨0x1200, 20, 0, 0, 0, 0, 0⟩)) =
      (List.replicate 20 0x0B ++ List.replicate 44 0x00, true) := by
  decide

/-- E-28: an unmapped key leaves the key that is held. -/
theorem test_hmacKey_unmapped :
    seen (0, false, []) (fun t => (t.err, t.kvalid, t.key.take 1)) (exec .hmacKey (keyed 6 ⟨0x20000, 4, 0, 0, 0, 0, 0⟩)) =
      (0x07, true, [0x0B]) := by
  decide

/-- M-1: the MAC of "Hi There"; bytes 0 and 31. -/
theorem test_hmacMac_hiThere :
    seen (0, 0) (fun t => (t.mem.read 0x2000, t.mem.read 0x201F))
      (exec .hmacMac (keyed 7 ⟨0x1310, 8, 0, 0, 0x2000, 0, 0⟩)) = (0xB0, 0xF7) := by
  decide +kernel

/-- E-10: no key, checked before the overlap. -/
theorem test_hmacMac_no_key : codeOf (exec .hmacMac (running 7 ⟨0x1000, 8, 0, 0, 0x1000, 0, 0⟩)) = 0x06 := by
  decide

/-- K-2: two iterations; bytes 0 and 31. -/
theorem test_kdf_two_iterations :
    seen (0, 0) (fun t => (t.mem.read 0x2000, t.mem.read 0x201F))
      (exec .kdf (running 8 ⟨0x1000, 8, 0x1100, 4, 0x2000, 32, 2⟩)) = (0xAE, 0x43) := by
  decide +kernel

/-- E-30: OUTMAX + 1, checked before the source length. -/
theorem test_kdf_too_large :
    codeOf (exec .kdf (running 8 ⟨0, 0x4000000000000000, 0x1100, 4, 0x8000000000000000, 0x1FFFFFFFE1, 1⟩)) = 0x03 := by
  decide

/-- Row 1 of the table, fetched as the first command after reset: it completes with `OK`. -/
theorem test_fetch_init : codeOf (step (State.reset.withFetchWord 32 1)) = 0x00 := by decide

/-! ### The window -/

/-- R-4: a write to STATUS while idle with DONE = 0 changes nothing. -/
theorem test_status_write : State.reset.hostWrite .status 0xFFFFFFFF = State.reset := by decide

/-- R-5: CTRL holds bit 0 only. -/
theorem test_ctrl_write : (State.reset.hostWrite .ctrl 0xFFFFFFFF).readReg .ctrl = 0x00000001 := by decide

/-- R-7: a write to BITCNT_LO is ignored. -/
theorem test_bitcnt_write :
    (State.hostWrite { State.reset with buf := abc, cnt := 24 } .bitcntLo 5).readReg .bitcntLo = 0x18 := by
  decide

/-- R-8: a write to H3 in FINALIZED. -/
theorem test_h3_write :
    (State.hostWrite { State.reset with phase := .finalized } (regAt 0x06C) 0x12345678).readReg (.h 3) = 0x12345678 := by
  decide

/-! ### Witnesses: what each statement assumes can be met -/

theorem witness_DecodeEncodeAgree : Instr.kdf.wellFormed = true ∧ decode 0x00000008 = .ok .kdf := by decide

theorem witness_IllegalWordsComplete :
    State.reset.busy = false ∧ (0x09 ≤ (0x00000009 : Word).toNat % 256) ∧ ((0x00000100 : Word).toNat / 256 ≠ 0) := by
  decide

theorem witness_StepRunsDecodedCommand :
    ∃ s : State, s.EngineMoves ∧ s.busy = true ∧ decode s.cmd = .ok .kdf ∧ Instr.kdf.wellFormed = true :=
  ⟨running 8 Params.zero, .inr ⟨rfl, rfl⟩, rfl, by decide, rfl⟩

theorem witness_StepRunsHostOperation :
    ∃ (s : State) (op : HostOp) (rest : List HostOp), s.HostMoves ∧ s.hostOps = op :: rest :=
  ⟨{ running 8 Params.zero with sched := [.host], hostOps := [.rd 0x004 .word] }, .rd 0x004 .word, [], .inl rfl, rfl⟩

theorem witness_StepRunsHostOperation_engine_idle : ∃ s : State, s.EngineMoves ∧ s.busy = false :=
  ⟨{ State.reset with sched := [.engine] }, .inl rfl, rfl⟩

theorem witness_StepRunsHostOperation_no_operation : ∃ s : State, s.HostMoves ∧ s.hostOps = [] :=
  ⟨State.reset, .inr ⟨rfl, rfl⟩, rfl⟩

/-- A state of the invariant in which a command runs. -/
theorem inv_fed : (fed 3 ⟨0, 0, 0, 0, 0x2000, 0, 0⟩).Inv where
  memWf := by decide
  bufLen := by decide
  cntBytes := by decide
  bufCnt := by decide
  bufFinal := by decide
  keyLen := by decide
  errCode := by decide
  running := fun _ => ⟨rfl, rfl, rfl⟩
  idle := by decide

theorem witness_StepKeepsInvariant : ∃ s t : State, s.Inv ∧ step s = .next t :=
  ⟨fed 3 ⟨0, 0, 0, 0, 0x2000, 0, 0⟩, (exists_next (o := step (fed 3 ⟨0, 0, 0, 0, 0x2000, 0, 0⟩)) (by decide)).imp
    fun _ h => ⟨inv_fed, h⟩⟩

theorem witness_ResetInput :
    ∃ (s : State) (rest : List HostOp), s.HostMoves ∧ s.hostOps = .assertReset :: rest ∧ s.busy = true ∧
      s.mem.wf = true ∧ s.ownedOutput 0x2000 = true ∧ s.ownedOutput 0x2020 = false :=
  ⟨{ fed 3 ⟨0, 0, 0, 0, 0x2000, 0, 0⟩ with sched := [.host], hostOps := [.assertReset] }, [], .inl rfl, rfl, rfl,
    by decide, by decide, by decide⟩

theorem witness_ResetInput_idle :
    ∃ (s : State) (rest : List HostOp), s.HostMoves ∧ s.hostOps = .assertReset :: rest ∧ s.busy = false :=
  ⟨idleWith [.assertReset], [], .inr ⟨rfl, rfl⟩, rfl, rfl⟩

theorem witness_CmdWriteIsAccepted :
    ∃ (s : State) (w : Word) (rest : List HostOp), s.HostMoves ∧ s.busy = false ∧ s.hostOps = .wr 0x000 .word w :: rest :=
  ⟨idleWith [.wr 0x000 .word 0xFFFFFFFF], 0xFFFFFFFF, [], .inr ⟨rfl, rfl⟩, rfl, rfl⟩

/-- Boundary offsets of each clause: CMD, H7, CTRL, STATUS with WERR written 1 and 0. -/
theorem witness_WritesWhileBusyAreDropped :
    (∃ s : State, s.HostMoves ∧ s.busy = true ∧ s.hostOps = [.wr 0x07C .word 7]) ∧
    (0x000 : Offset) ∈ guardedOffsets ∧ (0x07C : Offset) ∈ guardedOffsets ∧ (0x008 : Offset) ∉ guardedOffsets ∧
    (0x004 : Offset) ∉ guardedOffsets ∧ (0x00000004 : Word).getLsbD 2 = true ∧ (0x00000002 : Word).getLsbD 2 = false :=
  ⟨⟨{ running 8 Params.zero with sched := [.host], hostOps := [.wr 0x07C .word 7] }, .inl rfl, rfl, rfl⟩,
    by decide, by decide, by decide, by decide, by decide, by decide⟩

/-- The boundary offsets of each reserved range are aligned and read as reserved. -/
theorem witness_ReservedOffsetsAndBits :
    ∀ off ∈ [(0x00C : Offset), 0x044, 0x04C, 0x058, 0x05C, 0x080, 0xFFC],
      off.toNat % 4 = 0 ∧ regAt off = .reserved := by decide

theorem witness_OnlyAlignedWordAccesses :
    AccessSize.dword ≠ .word ∧ (0xFFF : Offset).toNat % 4 ≠ 0 ∧ (0x001 : Offset).toNat % 4 ≠ 0 ∧
    (0x000 : Offset).toNat % 4 = 0 ∧ (0xFFC : Offset).toNat % 4 = 0 := by decide

theorem witness_OnlyAlignedWordAccesses_read : (∃ s : State, s.busy = false) ∧ (∃ s : State, s.busy = true) :=
  ⟨⟨State.reset, rfl⟩, ⟨running 8 Params.zero, rfl⟩⟩

theorem witness_StatusWordFields :
    (∃ s : State, s.busy = false ∧ s.buf.length = 63) ∧ (0x00000006 : Word).getLsbD 1 = true ∧
    (0x00000006 : Word).getLsbD 2 = true ∧ (0x00000000 : Word).getLsbD 1 = false ∧ (0x00000000 : Word).getLsbD 2 = false :=
  ⟨⟨{ State.reset with buf := List.replicate 63 1, cnt := 504 }, rfl, by decide⟩, by decide, by decide, by decide, by decide⟩

theorem witness_ReadsWhileBusy : ∃ s : State, s.busy = true := ⟨running 8 Params.zero, rfl⟩

theorem witness_ControlWord :
    (∃ s : State, s.ie = true ∧ s.done = true) ∧ (∃ s : State, s.ie = false ∧ s.done = true) :=
  ⟨⟨{ State.reset with ie := true, done := true }, rfl, rfl⟩, ⟨{ State.reset with done := true }, rfl, rfl⟩⟩

theorem witness_HashRegisterAccess : State.reset.busy = false ∧ (7 : Fin 8) ≠ 0 := by decide

theorem witness_BitCounterRegisters : ∃ s : State, s.busy = false ∧ s.cnt = 0xFFFFFFFFFFFFFFF8 :=
  ⟨{ State.reset with cnt := 0xFFFFFFFFFFFFFFF8 }, rfl, rfl⟩

theorem witness_ParameterHalves : State.reset.busy = false ∧ (0x7FC : Offset).toNat % 4 = 0 ∧ (0x7FC : Offset) ≠ 0x040 := by
  decide

theorem witness_InterruptLevel :
    State.reset.busy = false ∧ (0x00000002 : Word).getLsbD 1 = true ∧ (0xFFFFFFFE : Word).getLsbD 0 = false := by decide

/-- The interrupt output is asserted, no command runs, and the host has these operations to come. -/
def raised (ops : List HostOp) : State := { idleWith ops with done := true, ie := true }

/-- A status read, each of the four events that lower the output, and writes of 0 to DONE and of 1 to IE, which do not. -/
theorem witness_InterruptLevel_steps :
    ∀ op ∈ [HostOp.rd 0x004 .word, .wr 0x004 .word 2, .wr 0x000 .word 0, .wr 0x008 .word 0, .assertReset,
        .wr 0x004 .word 4, .wr 0x008 .word 1],
      (raised [op]).irq = true ∧ (raised [op]).HostMoves ∧ ∃ t, step (raised [op]) = .next t := by
  intro op hop
  have h : ∀ op ∈ [HostOp.rd 0x004 .word, .wr 0x004 .word 2, .wr 0x000 .word 0, .wr 0x008 .word 0, .assertReset,
      .wr 0x004 .word 4, .wr 0x008 .word 1], answers (step (raised [op])) = true := by decide
  exact ⟨rfl, .inr ⟨rfl, rfl⟩, exists_next (h op hop)⟩

theorem witness_BufferAndKeyNotReadable : ∃ (s : State) (b : List Byte), b.length = s.buf.length ∧ b ≠ s.buf :=
  ⟨fed 3 Params.zero, [1, 2, 3], by decide, by decide⟩

theorem witness_ScheduleRecurrence : ∃ b : List Byte, b.length = 64 := ⟨zeros 64, by decide⟩

theorem witness_CompressIsSixtyFourRounds : ∃ b : List Byte, b.length = 64 := ⟨List.replicate 64 0xFF, by decide⟩

theorem witness_AbsorbCompressesFullBlocks : ∃ c : Stream, c.buf.length = 63 := ⟨⟨iv, zeros 63, 504⟩, by decide⟩

theorem witness_FinishPadsOneOrTwoBlocks :
    (∃ c : Stream, c.buf.length = 55) ∧ (∃ c : Stream, c.buf.length = 56) ∧ (∃ c : Stream, c.buf.length = 63) :=
  ⟨⟨⟨iv, zeros 55, 440⟩, by decide⟩, ⟨⟨iv, zeros 56, 448⟩, by decide⟩, ⟨⟨iv, zeros 63, 504⟩, by decide⟩⟩

/-- The empty message takes 55 zero bytes, one of 55 bytes none, one of 56 bytes 63. -/
theorem witness_Sha256OfPaddedMessage :
    ∀ mk ∈ [(zeros 0, 55), (zeros 55, 0), (zeros 56, 63)],
      (mk.1.length + 1 + mk.2) % 64 = 56 ∧ ∀ j, j < mk.2 → (mk.1.length + 1 + j) % 64 ≠ 56 := by decide

theorem witness_DigestBytes : (3 : Nat) < 4 := by decide

theorem witness_StreamingGivesSha256 :
    ∃ (s : State) (ps : List Params) (q : Params), s.races = [] ∧ s.mem.wf = true ∧ (∀ p ∈ ps, s.Usable p.src) ∧
      s.Usable q.dst32 ∧ (ps.map fun p => p.srcLen.toNat).sum = 9 :=
  ⟨running 1 Params.zero, [⟨0x1300, 1, 0, 0, 0, 0, 0⟩, ⟨0x1000, 8, 0, 0, 0, 0, 0⟩], ⟨0, 0, 0, 0, 0x2000, 0, 0⟩, rfl,
    by decide,
    fun p hp => by
      simp only [List.mem_cons, List.not_mem_nil, or_false] at hp
      rcases hp with rfl | rfl <;>
        exact usable_of_checks (by decide) (by decide) (by decide),
    usable_of_checks (by decide) (by decide) (by decide), by decide⟩

theorem witness_LongKeyEqualsItsHash : ∃ k : List Byte, k.length = 65 := ⟨List.replicate 65 1, by decide⟩

theorem witness_TrailingZerosOfKey : ∃ (k : List Byte) (j : Nat), k.length + j = 64 := ⟨[1], 63, by decide⟩

theorem witness_ZeroIterationsIsOne : ∃ s t : State, s.snap.iter = 0 ∧ exec .kdf s = .next t ∧ t.err = 0 :=
  ⟨running 8 ⟨0x1000, 8, 0x1100, 4, 0x2000, 32, 0⟩,
    (exists_next_code (o := exec .kdf (running 8 ⟨0x1000, 8, 0x1100, 4, 0x2000, 32, 0⟩)) (by decide)
      (by decide)).imp fun _ h => ⟨rfl, h⟩⟩

theorem witness_KdfLengthAndPrefix : (1 : Nat) ≤ 40 := by decide

theorem witness_UpdateCompletes :
    ∃ s : State, s.phase = .accumulating ∧ s.buf.length ≤ 63 ∧ s.cnt.toNat % 8 = 0 ∧ s.Usable s.snap.src ∧
      s.cnt.toNat / 8 + s.snap.srcLen.toNat ≤ 2 ^ 61 - 1 :=
  ⟨fed 2 ⟨0x1000, 8, 0, 0, 0, 0, 0⟩, rfl, by decide, by decide,
    usable_of_checks (by decide) (by decide) (by decide), by decide⟩

theorem witness_FinalCompletes :
    ∃ s : State, s.phase = .accumulating ∧ s.buf.length ≤ 63 ∧ s.Usable s.snap.dst32 ∧ s.mem.wf = true :=
  ⟨fed 3 ⟨0, 0, 0, 0, 0x2000, 0, 0⟩, rfl, by decide,
    usable_of_checks (by decide) (by decide) (by decide), by decide⟩

theorem witness_CompressCompletes : ∃ s : State, s.snap.srcLen.toNat = 64 ∧ s.Usable s.snap.src :=
  ⟨running 4 ⟨0x3000, 64, 0, 0, 0, 0, 0⟩, by decide,
    usable_of_checks (by decide) (by decide) (by decide)⟩

theorem witness_HashCompletes :
    ∃ s : State, s.Usable s.snap.src ∧ s.Usable s.snap.dst32 ∧ s.snap.dst32.overlaps s.snap.src = false ∧
      s.snap.srcLen.toNat ≤ 2 ^ 61 - 1 ∧ s.mem.wf = true :=
  ⟨running 5 ⟨0x1000, 8, 0, 0, 0x0FE0, 0, 0⟩, usable_of_checks (by decide) (by decide) (by decide),
    usable_of_checks (by decide) (by decide) (by decide), by decide, by decide,
    by decide⟩

theorem witness_HmacKeyCompletes : ∃ s : State, s.Usable s.snap.src ∧ s.snap.srcLen.toNat ≤ 2 ^ 61 - 1 :=
  ⟨running 6 ⟨0x1200, 20, 0, 0, 0, 0, 0⟩, usable_of_checks (by decide) (by decide) (by decide),
    by decide⟩

theorem witness_HmacMacCompletes :
    ∃ s : State, s.kvalid = true ∧ s.Usable s.snap.src ∧ s.Usable s.snap.dst32 ∧
      s.snap.dst32.overlaps s.snap.src = false ∧ s.snap.srcLen.toNat ≤ 2 ^ 61 - 1 - 64 ∧ s.mem.wf = true :=
  ⟨keyed 7 ⟨0x1310, 8, 0, 0, 0x2000, 0, 0⟩, rfl,
    usable_of_checks (by decide) (by decide) (by decide),
    usable_of_checks (by decide) (by decide) (by decide), by decide, by decide,
    by decide⟩

theorem witness_KdfCompletes :
    ∃ s : State, s.Usable s.snap.src ∧ s.Usable s.snap.aux ∧ s.Usable s.snap.dstOut ∧
      s.snap.dstOut.overlaps s.snap.src = false ∧ s.snap.dstOut.overlaps s.snap.aux = false ∧
      s.snap.outLen.toNat ≤ 137438953440 ∧ s.snap.srcLen.toNat ≤ 2 ^ 61 - 1 ∧
      s.snap.auxLen.toNat ≤ 2 ^ 61 - 1 - 68 ∧ s.mem.wf = true :=
  ⟨running 8 ⟨0x1000, 8, 0x1100, 4, 0x2000, 33, 1⟩,
    usable_of_checks (by decide) (by decide) (by decide),
    usable_of_checks (by decide) (by decide) (by decide),
    usable_of_checks (by decide) (by decide) (by decide), by decide, by decide,
    by decide, by decide, by decide, by decide⟩

/-- The same with OUT_LEN 0, for the last clause. -/
theorem witness_KdfCompletes_empty :
    ∃ s : State, s.Usable s.snap.src ∧ s.Usable s.snap.aux ∧ s.Usable s.snap.dstOut ∧ s.snap.outLen = 0 :=
  ⟨running 8 ⟨0x1000, 8, 0x1100, 4, 0xFFFFFFFFFFFFFFFF, 0, 1⟩,
    usable_of_checks (by decide) (by decide) (by decide),
    usable_of_checks (by decide) (by decide) (by decide),
    usable_of_checks (by decide) (by decide) (by decide), rfl⟩

/-! Witnesses of `ChecksInFixedOrder` and `DeviceRegionsAreRefused`, for each code and for passing. -/

theorem phase_ok {i : Instr} {s : State} (h1 : i ≠ .update) (h2 : i ≠ .final) : ¬ Instr.phaseFails i s := by
  rintro ⟨h | h, _⟩
  · exact h1 h
  · exact h2 h

theorem key_ok {i : Instr} {s : State} (h : i ≠ .hmacMac) : ¬ Instr.keyFails i s := fun hk => h hk.1

theorem request_ok {i : Instr} {s : State} (h : i ≠ .kdf) : ¬ Instr.requestFails i s := fun hr => h hr.1

/-- The argument check passes when every region is well-formed and the output meets no input. -/
theorem argument_ok {i : Instr} {s : State} (h1 : ∀ r ∈ Instr.regions i s.snap, r.wellFormed = true) (h2 : i ≠ .compress)
    (h3 : ∀ o, Instr.outputRegion i s.snap = some o → ∀ r ∈ Instr.inputRegions i s.snap, o.overlaps r = false) :
    ¬ Instr.argumentFails i s := by
  rintro (⟨r, hr, hb⟩ | ⟨hc, _⟩ | ⟨o, ho, r, hr, hb⟩)
  · have := (Region.wellFormed_iff r).mp (h1 r hr)
    omega
  · exact h2 hc
  · rw [h3 o ho r hr] at hb
    cases hb

/-- The platform of State.reset has no device. -/
theorem no_device {i : Instr} {s : State} (h : s.map = State.reset.map) : ¬ Instr.deviceNamed i s := by
  rintro ⟨r, _, a, _, hd⟩
  simp [State.deviceAddr, h, State.reset] at hd

/-- E-7: an illegal word in FINALIZED. -/
theorem witness_check_illegal :
    ∃ s : State, s.busy = true ∧ decode s.cmd = .error .reservedBits ∧ s.phase = .finalized :=
  ⟨{ running 0x103 Params.zero with phase := .finalized }, rfl, by decide, rfl⟩

/-- E-8. -/
theorem witness_check_sequence : ∃ s : State, ¬ Instr.deviceNamed .update s ∧ Instr.FirstFailure .update s .sequenceError :=
  ⟨{ running 2 ⟨0xFFFFFFFFFFFFFFFF, 2, 0, 0, 0, 0, 0⟩ with phase := .finalized }, no_device rfl, .inl rfl, rfl⟩

/-- E-10. -/
theorem witness_check_key : ∃ s : State, ¬ Instr.deviceNamed .hmacMac s ∧ Instr.FirstFailure .hmacMac s .keyNotSet :=
  ⟨running 7 ⟨0x1000, 8, 0, 0, 0x1000, 0, 0⟩, no_device rfl, phase_ok (by decide) (by decide), rfl, rfl⟩

/-- E-22. -/
theorem witness_check_argument :
    ∃ s : State, ¬ Instr.deviceNamed .compress s ∧ Instr.FirstFailure .compress s .invalidArgument :=
  ⟨running 4 ⟨0xFFFFFFFFFFFFFFC1, 64, 0, 0, 0, 0, 0⟩, no_device rfl, phase_ok (by decide) (by decide), key_ok (by decide),
    .inl ⟨_, List.mem_singleton.mpr rfl, by decide⟩⟩

/-- OUT_LEN is OUTMAX + 1, the regions being well-formed. -/
theorem witness_check_request : ∃ s : State, ¬ Instr.deviceNamed .kdf s ∧ Instr.FirstFailure .kdf s .requestTooLarge :=
  ⟨running 8 ⟨0x1000, 8, 0x1100, 4, 0x8000000000000000, 0x1FFFFFFFE1, 1⟩, no_device rfl, phase_ok (by decide) (by decide),
    key_ok (by decide), argument_ok (by decide) (by decide) (by decide), rfl, by decide⟩

/-- E-29. -/
theorem witness_check_length :
    ∃ s : State, ¬ Instr.deviceNamed .hmacKey s ∧ Instr.FirstFailure .hmacKey s .unsupportedLength :=
  ⟨running 6 ⟨0, 0x2000000000000000, 0, 0, 0, 0, 0⟩, no_device rfl, phase_ok (by decide) (by decide), key_ok (by decide),
    argument_ok (by decide) (by decide) (by decide), request_ok (by decide),
    show 2 ^ 61 - 1 < (0x2000000000000000 : DWord).toNat by decide⟩

/-- E-12. -/
theorem witness_check_unmapped : ∃ s : State, ¬ Instr.deviceNamed .hash s ∧ Instr.FirstFailure .hash s .unmapped :=
  ⟨running 5 ⟨0xFFFFFFFFFFFFFFF8, 8, 0, 0, 0x2000, 0, 0⟩, no_device rfl, phase_ok (by decide) (by decide), key_ok (by decide),
    argument_ok (by decide) (by decide) (by decide), request_ok (by decide), show ¬ 2 ^ 61 - 1 < (8 : DWord).toNat by decide,
    ⟨_, List.mem_cons_self, 0xFFFFFFFFFFFFFFF8, by decide, by decide⟩⟩

/-- HMAC_KEY passes every check when its region is well-formed, short and mapped. -/
theorem hmacKey_passes (s : State) (h1 : s.snap.src.wellFormed = true) (h2 : s.snap.srcLen.toNat ≤ 2 ^ 61 - 1)
    (h3 : s.mapped s.snap.src = true) : Instr.Passes .hmacKey s :=
  ⟨phase_ok (by decide) (by decide), key_ok (by decide),
    argument_ok (fun r hr => by rw [List.mem_singleton.mp hr]; exact h1) (by decide) (fun o ho => by cases ho),
    request_ok (by decide), fun hl => absurd (show 2 ^ 61 - 1 < s.snap.srcLen.toNat from hl) (by omega), by
      rintro ⟨r, hr, a, ha, hm⟩
      have hr' : r = s.snap.src := List.mem_singleton.mp hr
      subst hr'
      rw [(State.mapped_iff ((Region.wellFormed_iff _).mp h1)).mp h3 a ha] at hm
      cases hm⟩

theorem witness_check_passes : ∃ s : State, ¬ Instr.deviceNamed .hmacKey s ∧ Instr.Passes .hmacKey s :=
  ⟨running 6 ⟨0x1200, 20, 0, 0, 0, 0, 0⟩, no_device rfl, hmacKey_passes _ (by decide) (by decide) (by decide)⟩

theorem witness_DeviceRegionsAreRefused_passes : ∃ s : State, Instr.deviceNamed .hmacKey s ∧ Instr.Passes .hmacKey s :=
  ⟨{ running 6 ⟨0x20000, 4, 0, 0, 0, 0, 0⟩ with map := deviceMap },
    ⟨_, List.mem_singleton.mpr rfl, 0x20000, by decide, by decide⟩, hmacKey_passes _ (by decide) (by decide) (by decide)⟩

theorem witness_DeviceRegionsAreRefused_fails :
    ∃ s : State, Instr.deviceNamed .hmacMac s ∧ Instr.FirstFailure .hmacMac s .keyNotSet :=
  ⟨{ running 7 ⟨0x20000, 4, 0, 0, 0x2000, 0, 0⟩ with map := deviceMap },
    ⟨_, List.mem_cons_self, 0x20000, by decide, by decide⟩, phase_ok (by decide) (by decide), rfl, rfl⟩

theorem witness_ErrorChangesNothingElse :
    ∃ (s t : State) (w : Word), (s.accept w).engineMove = .next t ∧ t.err ≠ 0 := by
  obtain ⟨t, ht, he⟩ := exists_next_code (o := (State.reset.accept 4).engineMove) (c := 0x01) (by decide) (by decide)
  exact ⟨State.reset, t, 4, ht, by rw [he]; decide⟩

theorem witness_CompletionEndsTheCommand : ∃ (i : Instr) (s t : State), exec i s = .next t ∧ s.werr = true :=
  ⟨.nop, { running 0 Params.zero with werr := true }, _, rfl, rfl⟩

theorem witness_CommandsKeepParameters : ∃ (i : Instr) (s t : State), exec i s = .next t ∧ s.params ≠ Params.zero :=
  ⟨.init, running 1 ⟨1, 2, 3, 4, 5, 6, 7⟩, _, rfl, by decide⟩

theorem witness_CommandFrame :
    (∃ s t : State, exec .hmacKey s = .next t ∧ t.err = 0) ∧ (∃ s t : State, exec .update s = .next t ∧ t.err = 0) :=
  ⟨⟨running 6 ⟨0x1200, 20, 0, 0, 0, 0, 0⟩, exists_next_code (by decide) (by decide)⟩,
    ⟨running 2 ⟨0x1300, 3, 0, 0, 0, 0, 0⟩, exists_next_code (by decide) (by decide)⟩⟩

theorem witness_MemoryFrame :
    (∃ s t : State, s.mem.wf = true ∧ exec .nop s = .next t) ∧
    (∃ s t : State, s.mem.wf = true ∧ exec .final s = .next t ∧ t.err = 0x07) ∧
    (∃ s : State, s.mem.wf = true ∧ (∃ t, exec .final s = .next t ∧ t.err = 0) ∧ s.snap.dst32.covers 0x2020 = false) ∧
    (∃ s : State, s.mem.wf = true ∧ (∃ t, exec .kdf s = .next t ∧ t.err = 0) ∧ s.snap.dstOut.covers 0x1FFF = false) :=
  ⟨⟨running 0 Params.zero, _, by decide, rfl⟩,
    ⟨running 3 ⟨0, 0, 0, 0, 0xFFFFFFFFFFFFFFE0, 0, 0⟩,
      (exists_next_code (o := exec .final (running 3 ⟨0, 0, 0, 0, 0xFFFFFFFFFFFFFFE0, 0, 0⟩)) (by decide)
        (by decide)).imp fun _ h => ⟨by decide, h⟩⟩,
    ⟨fed 3 ⟨0, 0, 0, 0, 0x2000, 0, 0⟩, by decide, exists_next_code (by decide) (by decide),
      by decide⟩,
    ⟨running 8 ⟨0x1000, 8, 0x1100, 4, 0x2000, 1, 1⟩, by decide,
      exists_next_code (by decide) (by decide), by decide⟩⟩

theorem witness_ContextsChangeOnlyByTheirCommands_engine :
    ∃ s t : State, step s = .next t ∧ s.EngineMoves ∧ decode s.cmd = .ok .final := by
  refine ⟨fed 3 ⟨0, 0, 0, 0, 0x2000, 0, 0⟩, ?_⟩
  obtain ⟨t, ht⟩ := exists_next (o := step (fed 3 ⟨0, 0, 0, 0, 0x2000, 0, 0⟩)) (by decide)
  exact ⟨t, ht, .inr ⟨rfl, rfl⟩, test_decode_final⟩

theorem witness_ContextsChangeOnlyByTheirCommands_host :
    ∃ s t : State, step s = .next t ∧ s.HostMoves ∧ s.hostOps = [.wr 0x060 .word 1] := by
  refine ⟨idleWith [.wr 0x060 .word 1], ?_⟩
  obtain ⟨t, ht⟩ := exists_next (o := step (idleWith [.wr 0x060 .word 1])) (by decide)
  exact ⟨t, ht, .inr ⟨rfl, rfl⟩, rfl⟩

/-- The last byte of the address space, and a region of length 0 there. -/
theorem witness_MappedMeansEveryByte :
    (Region.mk 0xFFFFFFFFFFFFFFFF 1).wellFormed = true ∧ (Region.mk 0xFFFFFFFFFFFFFFFF 0).len = 0 := by decide

theorem witness_OverlapMeansSharedByte :
    (Region.mk 0x0FE9 32).wellFormed = true ∧ (Region.mk 0x1000 8).wellFormed = true ∧
    (Region.mk 0x0FE9 32).overlaps ⟨0x1000, 8⟩ = true ∧ (Region.mk 0x0FE0 32).overlaps ⟨0x1000, 8⟩ = false := by
  decide

theorem witness_MemoryCanonicalForm : image.wf = true ∧ (Memory.write image 0x1000 0).wf = true := by decide

/-- A byte of the running output region, one of the running input region, and one of neither. -/
theorem witness_HostMemoryAccess :
    ∃ s : State, s.mem.wf = true ∧
      (s.mappedAddr 0x2000 = true ∧ s.deviceAddr 0x2000 = false ∧ s.ownedOutput 0x2000 = true) ∧
      (s.mappedAddr 0x1302 = true ∧ s.deviceAddr 0x1302 = false ∧ s.ownedOutput 0x1302 = false ∧
        s.ownedInput 0x1302 = true) ∧
      (s.mappedAddr 0x2020 = true ∧ s.deviceAddr 0x2020 = false ∧ s.ownedOutput 0x2020 = false ∧
        s.ownedInput 0x2020 = false) :=
  ⟨running 5 ⟨0x1300, 3, 0, 0, 0x2000, 0, 0⟩, by decide, by decide, by decide, by decide⟩

theorem witness_KeyUnobservableUntilSet :
    (∃ s t : State, s.kvalid = false ∧ step s = .next t ∧ t.kvalid = true) ∧
    (∃ s t : State, s.kvalid = false ∧ step s = .next t ∧ t.kvalid = false) := by
  constructor
  · refine ⟨running 6 ⟨0x1200, 20, 0, 0, 0, 0, 0⟩, ?_⟩
    have h : seen false State.kvalid (step (running 6 ⟨0x1200, 20, 0, 0, 0, 0, 0⟩)) = true := by decide
    obtain ⟨t, ht⟩ := exists_next (o := step (running 6 ⟨0x1200, 20, 0, 0, 0, 0, 0⟩)) (by decide)
    rw [ht] at h
    exact ⟨t, rfl, ht, h⟩
  · exact ⟨State.reset, State.reset, rfl, rfl, rfl⟩

theorem witness_LatchedCommandUnobservableWhileIdle :
    ∃ s t : State, s.busy = false ∧ step s = .next t ∧ t.busy = true := by
  refine ⟨idleWith [.wr 0x000 .word 5], ?_⟩
  have h : seen false State.busy (step (idleWith [.wr 0x000 .word 5])) = true := by decide
  obtain ⟨t, ht⟩ := exists_next (o := step (idleWith [.wr 0x000 .word 5])) (by decide)
  rw [ht] at h
  exact ⟨t, rfl, ht, h⟩

/-- Two states that agree on the key and on the bytes of "Hi There" alone. -/
theorem witness_ResultsDependOnlyOnInputs :
    ∃ s1 s2 : State, s1 ≠ s2 ∧ s1.snap = s2.snap ∧ s1.map = s2.map ∧ s1.races = [] ∧ s2.races = [] ∧
      s1.mem.wf = true ∧ s2.mem.wf = true ∧ (s1.key = s2.key ∧ s1.kvalid = s2.kvalid) ∧
      (∀ r ∈ Instr.inputRegions .hmacMac s1.snap, ∀ a : Addr, r.covers a = true → s1.mem.read a = s2.mem.read a) ∧
      ∃ t1, exec .hmacMac s1 = .next t1 ∧ t1.err = 0 := by
  refine ⟨keyed 7 ⟨0x1310, 8, 0, 0, 0x2000, 0, 0⟩,
    { keyed 7 ⟨0x1310, 8, 0, 0, 0x2000, 0, 0⟩ with mem := cells 0x1310 hiThere, cnt := 8, buf := [1] },
    by decide, rfl, rfl, rfl, rfl, by decide, by decide, ⟨rfl, rfl⟩, ?_,
    exists_next_code (by decide) (by decide)⟩
  intro r hr a ha
  have hr' : r = (keyed 7 ⟨0x1310, 8, 0, 0, 0x2000, 0, 0⟩).snap.src := List.mem_singleton.mp hr
  subst hr'
  have h := (everyByte_region (fun a => Memory.read image a == Memory.read (cells 0x1310 hiThere) a)
    (r := (keyed 7 ⟨0x1310, 8, 0, 0, 0x2000, 0, 0⟩).snap.src) (by decide)).mp (by decide) a ha
  exact eq_of_beq h

/-- From reset, with SRC_ADDR, SRC_LEN and DST_ADDR written, before `run HASH` of "abc" (S-2). -/
def hashing (rest : List HostOp) : State :=
  { State.reset with mem := image, params := ⟨0x1300, 3, 0, 0, 0x2000, 0, 0⟩, hostOps := HostOp.run .hash ++ rest }

/-- What that program states of its start (70_reset_and_hazards.md R244). -/
def hashLaunch (rest : List HostOp) : Launch :=
  ⟨HostOp.run .hash ++ rest, ⟨iv, [], 0⟩, .accumulating, none, [(0x1300, abc)], [⟨0x1300, 3⟩, ⟨0x2000, 32⟩]⟩

theorem cleanEntry_hashing (rest : List HostOp) : (hashing rest).CleanEntry (hashLaunch rest) where
  idle := rfl
  streaming := ⟨rfl, rfl⟩
  keyed := rfl
  noWritePending := rfl
  inputBytes := by
    have h : byteRange (Memory.read image) 0x1300 abc.length = abc := by decide
    exact fun d hd => by rw [List.mem_singleton.mp hd]; exact h
  mapped := by
    have h : ∀ r ∈ [(⟨0x1300, 3⟩ : Region), ⟨0x2000, 32⟩], State.reset.mapped r = true := by decide
    exact h

/-- The last operation of the program or not, the premises of the run are met. -/
theorem witness_RunCompletesInThreeSteps :
    ∀ rest ∈ [[], [HostOp.ack]],
      ∃ (s : State) (l : Launch), s.CleanEntry l ∧ l.ops = HostOp.run .hash ++ rest ∧ s.sched = [] ∧
        ∀ t, exec .hash { s.accept (encode .hash) with hostOps := .wait :: rest } ≠ .refused t := by
  intro rest h
  refine ⟨hashing rest, hashLaunch rest, cleanEntry_hashing rest, rfl, rfl, fun t ht => ?_⟩
  obtain ⟨u, hu⟩ := exists_next (o := exec .hash
    { State.accept (hashing rest) (encode .hash) with hostOps := .wait :: rest })
    (by fin_cases h <;> decide)
  rw [hu] at ht
  cases ht

theorem witness_RunCompletesInThreeSteps_ended : State.reset.ended = true := rfl

/-- What the host read on the way is not observed; a byte of memory is. -/
theorem witness_RunCompletesInThreeSteps_observe :
    State.observe { State.reset with rdata := 1, draws := 7 } = State.reset.observe ∧
    State.observe { State.reset with mem := [(0x1000, 1)] } ≠ State.reset.observe :=
  ⟨rfl, fun h => by cases congrArg Observation.mem h⟩

end Sys2Proof.Tests
end

section
/-!
SUPPORT. The family of 00_scope.md: a step of the host is its next operation (R17), and HASH, HMAC_MAC and KDF depend only on
their inputs (R18). The second is proved check by check: two runs under the same checks give the same result when what follows
each check does.
-/
namespace Sys2Proof.Machine

/-! ### The host's step -/

/-- A host without an operation leaves the state alone (70_reset_and_hazards.md R255). -/
theorem State.hostMove_nil {s : State} (h : s.hostOps = []) : s.hostMove = .next s := by
  simp [State.hostMove, h]

/-- Settles O5: whose turn it is fixes whose move the step is, and the laws of the two moves say the rest. -/
theorem stepRunsHostOperation : Obligations.StepRunsHostOperation := by
  unfold Obligations.StepRunsHostOperation
  refine ⟨fun s op rest hm ho => ?_, fun s h => ?_⟩
  · rw [step_host hm, State.hostMove_cons ho]
  · obtain ⟨hm, hb⟩ | ⟨hm, ho⟩ := h
    · rw [step_engine hm, State.engineMove_idle (s := s.turnTaken) hb]
    · rw [step_host hm, State.hostMove_nil (s := s.turnTaken) ho]

/-! ### What a command reads -/

/-- Every byte a well-formed region reaches by index is one it names. -/
theorem Region.covers_add {r : Region} (hw : r.wellFormed = true) {i : Nat} (hi : i < r.len.toNat) :
    r.covers (r.base + BitVec.ofNat 64 i) = true := by
  rw [Region.wellFormed_iff] at hw
  rw [Region.covers_iff, addr_add_toNat (by omega)]
  omega

/-- Without a race the engine reads the byte of memory. -/
theorem State.inputByte_of_races_nil {s : State} (h : s.races = []) (p : Nat) (a : Addr) :
    s.inputByte p a = s.mem.read a := by
  simp [State.inputByte, h]

/-- Two memories hold the same bytes in a region. -/
def State.SameBytes (s1 s2 : State) (r : Region) : Prop :=
  ∀ a : Addr, r.covers a = true → s1.mem.read a = s2.mem.read a

/-- Two states without raced bytes that agree on the operands and the map, each memory in canonical form. -/
structure State.SameOperands (s1 s2 : State) : Prop where
  snap : s1.snap = s2.snap
  map : s1.map = s2.map
  races₁ : s1.races = []
  races₂ : s2.races = []
  wf₁ : s1.mem.wf = true
  wf₂ : s2.mem.wf = true

namespace State.SameOperands

variable {s1 s2 : State}

/-- Which regions exist depends on the map alone. -/
theorem mapped_eq (h : s1.SameOperands s2) : s1.mapped = s2.mapped := by
  funext r
  unfold State.mapped State.mappedAddr
  rw [h.map]

/-- Which regions the model admits depends on the map alone. -/
theorem admits_eq (h : s1.SameOperands s2) : s1.admits = s2.admits := by
  funext r
  simp only [State.admits, State.deviceAddr, h.map]

/-- The engine reads the same bytes from a well-formed region that holds the same bytes. -/
theorem readRegion_eq (h : s1.SameOperands s2) (p : Nat) {r : Region} (hw : r.wellFormed = true)
    (hb : s1.SameBytes s2 r) : s1.readRegion p r = s2.readRegion p r := by
  simp only [State.readRegion, State.memRead_eq, byteRange]
  refine List.map_congr_left fun i hi => ?_
  rw [State.inputByte_of_races_nil h.races₁, State.inputByte_of_races_nil h.races₂]
  exact hb _ (Region.covers_add hw (List.mem_range.mp hi))

end State.SameOperands

/-! ### Two runs with the same result -/

/-- Whenever the first outcome is a next state, so is the second, with the same code and, on success, the same bytes in the
output region `o`. -/
def SameResult (o : Region) (out1 out2 : StepOutcome) : Prop :=
  ∀ t1 : State, out1 = .next t1 → ∃ t2, out2 = .next t2 ∧ t2.err = t1.err ∧ (t1.err = 0 → t1.SameBytes t2 o)

namespace SameResult

variable {o : Region} {s1 s2 : State} {out1 out2 : StepOutcome}

/-- Two runs that raise the same error report the same code, and neither succeeds. -/
theorem raise (e : ErrorCode) : SameResult o (s1.raise e) (s2.raise e) := by
  rintro t1 ⟨⟩
  exact ⟨_, rfl, rfl, fun h => absurd h e.code_ne_zero⟩

/-- Two runs under the same check (60_exceptions.md R213): it fails in both, or both go on. -/
theorem check {c : Prop} [Decidable c] {e : ErrorCode} (h : ¬ c → SameResult o out1 out2) :
    SameResult o (if c then s1.raise e else out1) (if c then s2.raise e else out2) := by
  by_cases hc : c
  · rw [if_pos hc, if_pos hc]
    exact raise e
  · rw [if_neg hc, if_neg hc]
    exact h hc

/-- Two runs that refuse the same regions (20_memory.md R60): a refusal is no next state. -/
theorem refuse {c : Prop} [Decidable c] {q : Refusal} (h : SameResult o out1 out2) :
    SameResult o (if c then .refused q else out1) (if c then .refused q else out2) := by
  by_cases hc : c
  · rw [if_pos hc, if_pos hc]
    rintro t1 ⟨⟩
  · rw [if_neg hc, if_neg hc]
    exact h

/-- Two runs that store the same bytes over the whole output region. -/
theorem store (h : s1.SameOperands s2) {v : List Byte} (ho : o.wellFormed = true) (hl : v.length = o.len.toNat)
    {u1 u2 : State} (h1 : u1.mem = s1.memWrite o.base v) (h2 : u2.mem = s2.memWrite o.base v) :
    SameResult o u1.succeed u2.succeed := by
  rintro t1 ⟨⟩
  refine ⟨_, rfl, rfl, fun _ a ha => ?_⟩
  rw [Region.wellFormed_iff] at ho
  rw [Region.covers_iff, ← hl] at ha
  simp only [State.complete_mem, h1, h2, State.memWrite, h.races₁, h.races₂]
  rw [Memory.read_writeBytes _ _ _ h.wf₁ (by omega), Memory.read_writeBytes _ _ _ h.wf₂ (by omega),
    if_pos ⟨ha.1, ha.2, List.not_mem_nil⟩, if_pos ⟨ha.1, ha.2, List.not_mem_nil⟩]

end SameResult

/-! ### The three commands -/

/-- A derived key has the length asked for (44_kdf.md R193). -/
@[simp] theorem pbkdf_length (p salt : List Byte) (c : Word) (n : Nat) : (pbkdf p salt c n).length = n := by
  simp only [pbkdf, List.length_take, kdfBlocks_length, blockCount]
  omega

section
variable {s1 s2 : State} (h : s1.SameOperands s2) (hsrc : s1.SameBytes s2 s2.snap.src)
include h hsrc

/-- HASH depends only on its source bytes (42_streaming.md R153). -/
theorem execHash_sameResult : SameResult s2.snap.dst32 (execHash s1) (execHash s2) := by
  unfold execHash
  rw [h.snap, h.mapped_eq, h.admits_eq]
  refine .check fun hs => .check fun hd => .check fun _ => .check fun _ => .check fun _ => .refuse ?_
  rw [Bool.not_eq_true, Bool.not_eq_false'] at hs hd
  rw [h.readRegion_eq 0 hs hsrc]
  exact .store h hd (sha256_length _) rfl rfl

/-- HMAC_MAC depends only on its source bytes and the key context (43_hmac.md R176, R181). -/
theorem execHmacMac_sameResult (hk : s1.key = s2.key) (hv : s1.kvalid = s2.kvalid) :
    SameResult s2.snap.dst32 (execHmacMac s1) (execHmacMac s2) := by
  unfold execHmacMac
  rw [h.snap, h.mapped_eq, h.admits_eq, hv]
  refine .check fun _ => .check fun hs => .check fun hd => .check fun _ => .check fun _ => .check fun _ => .refuse ?_
  rw [Bool.not_eq_true, Bool.not_eq_false'] at hs hd
  rw [hk, h.readRegion_eq 0 hs hsrc]
  exact .store h hd (hmacK_length _ _) rfl rfl

/-- KDF depends only on its source and auxiliary bytes (44_kdf.md R195, R196). -/
theorem execKdf_sameResult (haux : s1.SameBytes s2 s2.snap.aux) :
    SameResult s2.snap.dstOut (execKdf s1) (execKdf s2) := by
  unfold execKdf
  rw [h.snap, h.mapped_eq, h.admits_eq]
  refine .check fun hs => .check fun ha => .check fun hd => .check fun _ => .check fun _ => .check fun _ =>
    .check fun _ => .refuse ?_
  rw [Bool.not_eq_true, Bool.not_eq_false'] at hs ha hd
  rw [h.readRegion_eq 0 hs hsrc, h.readRegion_eq 1 ha haux]
  exact .store h hd (pbkdf_length _ _ _ _) rfl rfl

end

/-- Settles O59: the two runs make the same checks, and after them they store the same function of the same bytes. -/
theorem resultsDependOnlyOnInputs : Obligations.ResultsDependOnlyOnInputs := by
  unfold Obligations.ResultsDependOnlyOnInputs
  intro i s1 s2 t1 hi hsnap hmap hr1 hr2 hw1 hw2 hkey hbytes ht
  have h : s1.SameOperands s2 := ⟨hsnap, hmap, hr1, hr2, hw1, hw2⟩
  rw [hsnap] at hbytes ⊢
  have hres : ∃ o, Instr.outputRegion i s2.snap = some o ∧ SameResult o (exec i s1) (exec i s2) := by
    simp only [List.mem_cons, List.not_mem_nil, or_false] at hi
    obtain rfl | rfl | rfl := hi
    · exact ⟨_, rfl, execHash_sameResult h (hbytes _ (List.mem_singleton_self _))⟩
    · obtain ⟨hk, hv⟩ := hkey rfl
      exact ⟨_, rfl, execHmacMac_sameResult h (hbytes _ (List.mem_singleton_self _)) hk hv⟩
    · exact ⟨_, rfl, execKdf_sameResult h (hbytes _ (by simp [Instr.inputRegions]))
        (hbytes _ (by simp [Instr.inputRegions]))⟩
  obtain ⟨o, ho, hsame⟩ := hres
  obtain ⟨t2, ht2, herr, hmem⟩ := hsame t1 ht
  refine ⟨t2, ht2, herr, fun hz o' a ho' => ?_⟩
  rw [ho, Option.some.injEq] at ho'
  exact ho' ▸ hmem hz a

end Sys2Proof.Machine
end

section
/-!
SUPPORT. The family of 10_state.md: what a successful command makes of the state, said once (`Instr.Effect`); the invariant; two
runs in step (`Follows`), for what cannot be observed; and the register window.
-/
namespace Sys2Proof.Machine

/-! ### What a command makes of the state -/

/-- `Instr.Effect s i u`: when `i` succeeds from `s` it completes the state `u` (40_dispatch.md R93). Of the checks it keeps
those that the invariant needs. -/
inductive Instr.Effect (s : State) : Instr → State → Prop
  | nop : Effect s .nop s
  | init : Effect s .init { s with hstate := iv, buf := [], cnt := 0, phase := .accumulating }
  | update (hphase : s.phase = .accumulating) (hlen : s.cnt.toNat / 8 + s.snap.srcLen.toNat ≤ lmax) :
      Effect s .update (s.setStream (absorb s.stream (s.readRegion 0 s.snap.src)))
  | final : Effect s .final { s with
      hstate := finish s.stream, buf := [], phase := .finalized,
      mem := s.memWrite s.snap.dstAddr (digest (finish s.stream)) }
  | compress : Effect s .compress { s with hstate := compressBlock s.hstate (s.readRegion 0 s.snap.src) }
  | hash : Effect s .hash { s with mem := s.memWrite s.snap.dstAddr (sha256 (s.readRegion 0 s.snap.src)) }
  | hmacKey : Effect s .hmacKey { s with key := normKey (s.readRegion 0 s.snap.src), kvalid := true }
  | hmacMac : Effect s .hmacMac { s with mem := s.memWrite s.snap.dstAddr (hmacK s.key (s.readRegion 0 s.snap.src)) }
  | kdf : Effect s .kdf { s with
      mem := s.memWrite s.snap.dstAddr
        (pbkdf (s.readRegion 0 s.snap.src) (s.readRegion 1 s.snap.aux) s.snap.iter s.snap.outLen.toNat) }

/-- A command that gives a next state ended with an error of its own or completed its effect. -/
theorem exec_cases {i : Instr} {s t : State} (h : exec i s = .next t) :
    s.ErrsTo t ∨ ∃ u, Instr.Effect s i u ∧ t = u.complete 0 := by
  cases i with
  | nop => exact .inr ⟨_, .nop, execNop_next h⟩
  | init => exact .inr ⟨_, .init, execInit_next h⟩
  | update =>
    refine (execUpdate_next h).imp_right ?_
    rintro ⟨hphase, -, hlen, -, -, ht⟩
    exact ⟨_, .update hphase hlen, ht⟩
  | final =>
    refine (execFinal_next h).imp_right ?_
    rintro ⟨-, -, -, -, ht⟩
    exact ⟨_, .final, ht⟩
  | compress =>
    refine (execCompress_next h).imp_right ?_
    rintro ⟨-, -, -, -, ht⟩
    exact ⟨_, .compress, ht⟩
  | hash =>
    refine (execHash_next h).imp_right ?_
    rintro ⟨-, -, -, -, -, -, -, -, ht⟩
    exact ⟨_, .hash, ht⟩
  | hmacKey =>
    refine (execHmacKey_next h).imp_right ?_
    rintro ⟨-, -, -, -, ht⟩
    exact ⟨_, .hmacKey, ht⟩
  | hmacMac =>
    refine (execHmacMac_next h).imp_right ?_
    rintro ⟨-, -, -, -, -, -, -, -, -, ht⟩
    exact ⟨_, .hmacMac, ht⟩
  | kdf =>
    refine (execKdf_next h).imp_right ?_
    rintro ⟨-, -, -, -, -, -, -, -, -, -, -, -, -, -, ht⟩
    exact ⟨_, .kdf, ht⟩

/-! ### The invariant -/

/-- Settles O7: each clause is a closed fact about the reset values. -/
theorem resetStateMeetsInvariant : Obligations.ResetStateMeetsInvariant where
  memWf := rfl
  bufLen := by decide
  cntBytes := rfl
  bufCnt _ := rfl
  bufFinal := nofun
  keyLen := rfl
  errCode := by decide
  running := nofun
  idle _ := rfl

namespace State.Inv

variable {s : State}

/-- Completion with a code of the table keeps the invariant. -/
theorem complete (h : s.Inv) {c : BitVec 8} (hc : c.toNat ≤ 7) : (s.complete c).Inv :=
  { h with errCode := hc, running := nofun, idle := fun _ => rfl }

/-- Acceptance keeps the invariant: the snapshot is the parameters (40_dispatch.md R90). -/
theorem accept (h : s.Inv) (w : Word) : (s.accept w).Inv :=
  { h with errCode := Nat.zero_le _, running := fun _ => ⟨rfl, rfl, rfl⟩, idle := nofun }

/-- A memory in canonical form may take the place of another. -/
theorem withMem (h : s.Inv) {m : Memory} (hm : m.wf = true) : State.Inv { s with mem := m } :=
  { h with memWf := hm }

/-- A streaming context that meets the clauses about it may take the place of another (10_state.md R23, R24). -/
theorem withStream (h : s.Inv) {c : Stream} {p : Phase} (hbuf : c.buf.length ≤ 63) (hcnt : c.cnt.toNat % 8 = 0)
    (hacc : p = .accumulating → c.buf.length = (c.cnt.toNat / 8) % 64) (hfin : p = .finalized → c.buf = []) :
    State.Inv { s.setStream c with phase := p } :=
  { h with bufLen := hbuf, cntBytes := hcnt, bufCnt := hacc, bufFinal := hfin }

/-- Absorbing bytes while accumulating keeps the invariant when the count does not wrap (42_streaming.md R141, R143). -/
theorem absorb (h : s.Inv) (hphase : s.phase = .accumulating) {d : List Byte}
    (hlen : s.cnt.toNat / 8 + d.length ≤ lmax) : (s.setStream (absorb s.stream d)).Inv := by
  have hcnt : (Machine.absorb s.stream d).cnt.toNat = s.cnt.toNat + 8 * d.length := by
    simp only [Machine.absorb, State.stream, BitVec.toNat_add, BitVec.toNat_ofNat]
    have := h.cntBytes
    unfold lmax at hlen
    omega
  have hbuf : (Machine.absorb s.stream d).buf.length = (s.buf.length + d.length) % 64 :=
    absorbBytes_buf_length d (s.hstate, s.buf) h.bufLen
  have hold := h.bufCnt hphase
  have hbytes := h.cntBytes
  refine h.withStream (c := Machine.absorb s.stream d) (p := s.phase) ?_ ?_ (fun _ => ?_) fun hf => ?_
  · omega
  · omega
  · omega
  · rw [hphase] at hf
    cases hf

/-- What a successful command completes meets the invariant. -/
theorem effect (h : s.Inv) {i : Instr} {u : State} (he : Instr.Effect s i u) : u.Inv := by
  have hmem (v : List Byte) : (s.memWrite s.snap.dstAddr v).wf = true := Memory.writeBytes_wf _ v h.memWf
  cases he with
  | nop => exact h
  | init => exact h.withStream (c := Stream.initial) (Nat.zero_le _) rfl (fun _ => rfl) nofun
  | update hphase hlen => exact h.absorb hphase (by rwa [readRegion_length])
  | final =>
    exact (h.withStream (c := ⟨finish s.stream, [], s.cnt⟩) (p := .finalized) (Nat.zero_le _) h.cntBytes nofun
      fun _ => rfl).withMem (hmem _)
  | compress => exact { h with }
  | hmacKey => exact { h with keyLen := normKey_length _ }
  | hash | hmacMac | kdf => exact h.withMem (hmem _)

/-- Every command keeps the invariant. -/
theorem exec (h : s.Inv) {i : Instr} {t : State} (ht : exec i s = .next t) : t.Inv := by
  obtain ⟨e, -, rfl⟩ | ⟨u, hu, rfl⟩ := exec_cases ht
  · exact h.complete e.code_le
  · exact (h.effect hu).complete (Nat.zero_le _)

/-- Every register write keeps the invariant. -/
theorem hostWrite (h : s.Inv) (r : Reg) (v : Word) : (s.hostWrite r v).Inv := by
  obtain ⟨-, hw⟩ | ⟨-, -, hw⟩ | ⟨hb, p, hw⟩ | ⟨-, i, -, hw⟩ | hw | hw | hw := s.hostWrite_cases r v <;> rw [hw]
  · exact { h with }
  · exact h.accept v
  · exact { h with running := fun hr => by simp [hb] at hr }
  · exact { h with }
  · refine { h with running := fun hr => ?_ }
    obtain ⟨hd, he, hp⟩ := h.running hr
    exact ⟨by simp [hd], he, hp⟩
  · exact { h with }
  · exact h

/-- Noting raced bytes keeps the invariant while a command runs. -/
theorem withRaces (h : s.Inv) (hb : s.busy = true) (l : List Addr) : State.Inv { s with races := l } :=
  { h with idle := fun hi => by simp [hb] at hi }

/-- Every host write to system memory keeps the invariant: only a running command owns a byte. -/
theorem hostStore (h : s.Inv) {t : State} {a : Addr} {b : Byte} (ht : s.hostStore a b = .next t) : t.Inv := by
  have hmem (b : Byte) : (s.mem.write a b).wf = true := Memory.write_wf h.memWf a b
  have howned (ho : s.ownedOutput a = true ∨ s.ownedInput a = true) : s.busy = true := by
    by_contra hb
    rw [Bool.not_eq_true] at hb
    simp [State.ownedOutput_idle hb, State.ownedInput_idle hb] at ho
  obtain ⟨ho, rfl⟩ | ⟨-, hi, rfl⟩ | ⟨-, -, rfl⟩ := State.hostStore_cases ht
  · exact { (h.withMem (hmem _)).withRaces (howned (.inl ho)) _ with }
  · exact (h.withMem (hmem _)).withRaces (howned (.inr hi)) _
  · exact h.withMem (hmem _)

/-- Asserting the reset input keeps the invariant. -/
theorem assertReset (h : s.Inv) : s.assertReset.Inv :=
  { resetStateMeetsInvariant with memWf := (State.memAfterReset_spec h.memWf 0).1 }

/-- Every host operation keeps the invariant. -/
theorem hostOperation (h : s.Inv) {t : State} {op : HostOp} (ht : s.hostOperation op = .next t) : t.Inv := by
  obtain ⟨off, v, -, -, rfl⟩ | ⟨off, -, -, rfl⟩ | ⟨-, l, rfl⟩ | ⟨-, l, rfl⟩ | ⟨a, b, -, hs⟩ | ⟨a, -, hl⟩ | ⟨-, rfl⟩ :=
    State.hostOperation_cases ht
  · exact h.hostWrite _ v
  · exact { h with }
  · exact { h with }
  · exact { h with }
  · exact h.hostStore hs
  · obtain ⟨b, n, rfl⟩ := State.hostLoad_cases hl
    exact { h with }
  · exact h.assertReset

end State.Inv

/-- Settles O8: taking a turn keeps the invariant, and so does every move. -/
theorem stepKeepsInvariant : Obligations.StepKeepsInvariant := by
  unfold Obligations.StepKeepsInvariant
  intro s t h hstep
  have hturn : s.turnTaken.Inv := { h with }
  obtain ⟨-, -, i, -, ht⟩ | ⟨-, -, -, rfl⟩ | ⟨-, op, rest, -, ht⟩ | rfl := step_cases hstep
  · exact hturn.exec ht
  · exact hturn.complete (by decide)
  · exact State.Inv.hostOperation (s := s.opTaken) { h with } ht
  · exact hturn

/-! ### Registers and their offsets -/

/-- The offset of each register (10_state.md R25), and for `reserved` the first reserved one. -/
def Reg.offset (r : Reg) : Offset :=
  match r with
  | .cmd => 0x000
  | .status => 0x004
  | .ctrl => 0x008
  | .srcAddrLo => 0x010
  | .srcAddrHi => 0x014
  | .srcLenLo => 0x018
  | .srcLenHi => 0x01C
  | .auxAddrLo => 0x020
  | .auxAddrHi => 0x024
  | .auxLenLo => 0x028
  | .auxLenHi => 0x02C
  | .dstAddrLo => 0x030
  | .dstAddrHi => 0x034
  | .outLenLo => 0x038
  | .outLenHi => 0x03C
  | .iter => 0x040
  | .bitcntLo => 0x050
  | .bitcntHi => 0x054
  | .h i => 0x060 + 4 * BitVec.ofNat 12 i.val
  | .reserved => 0x00C

/-- The register at the offset of a register. -/
@[simp] theorem regAt_offset (r : Reg) : regAt r.offset = r := by
  cases r with
  | h i => revert i; decide
  | _ => rfl

/-- Every offset that is no register's is reserved (10_state.md R33). -/
theorem regAt_eq_reserved {off : Offset} (h : ∀ r ∈ windowRegs, r.offset ≠ off) : regAt off = .reserved := by
  simp [windowRegs, Reg.offset, eq_comm (b := off)] at h
  simp [regAt, h]

/-- The offset of the register at an offset. -/
theorem offset_regAt {off : Offset} (h : regAt off ≠ .reserved) : (regAt off).offset = off := by
  by_contra hne
  refine h (regAt_eq_reserved fun r _ hr => hne ?_)
  rw [← hr, regAt_offset]

/-- No two offsets have one register, but for reserved ones. -/
theorem regAt_ne {off off' : Offset} (h : regAt off ≠ .reserved) (hne : off' ≠ off) : regAt off' ≠ regAt off := by
  intro heq
  rw [← offset_regAt h, ← heq, offset_regAt (heq ▸ h)] at hne
  exact hne rfl

/-- The offsets of H0..H7 (10_state.md R25). -/
theorem Reg.offset_h (i : Fin 8) : 0x060 ≤ (Reg.h i).offset.toNat ∧ (Reg.h i).offset.toNat ≤ 0x07C := by
  revert i
  decide

/-- Every register stands at a multiple of 4 (10_state.md R25). -/
theorem Reg.offset_aligned (r : Reg) : r.offset.toNat % 4 = 0 := by
  cases r with
  | h i => revert i; decide
  | _ => rfl

/-! ### Frames and contexts -/

/-- Settles O50: an error leaves all that the frame speaks of, and so does each effect outside the fields it writes. -/
theorem commandFrame : Obligations.CommandFrame := by
  unfold Obligations.CommandFrame
  intro i s t ht
  obtain ⟨e, -, rfl⟩ | ⟨u, hu, rfl⟩ := exec_cases ht
  · simp
  · cases hu <;> simp

/-- The streaming context is unchanged (10_state.md R20, R36). -/
def State.SameStream (s t : State) : Prop :=
  t.hstate = s.hstate ∧ t.buf = s.buf ∧ t.cnt = s.cnt ∧ t.phase = s.phase

/-- The key context is unchanged (10_state.md R20, R36). -/
def State.SameKey (s t : State) : Prop := t.key = s.key ∧ t.kvalid = s.kvalid

/-- A register write leaves both contexts alone, but for a write to H0..H7 while idle. -/
theorem State.hostWrite_contexts (s : State) (r : Reg) (v : Word) :
    s.SameKey (s.hostWrite r v) ∧
    (s.SameStream (s.hostWrite r v) ∨
      s.busy = false ∧ ∃ i, r = .h i ∧ s.hostWrite r v = { s with hstate := s.hstate.set i v }) := by
  obtain ⟨-, hw⟩ | ⟨-, -, hw⟩ | ⟨-, p, hw⟩ | ⟨hb, i, hi, hw⟩ | hw | hw | hw := s.hostWrite_cases r v <;> rw [hw]
  case inr.inr.inr.inl => exact ⟨⟨rfl, rfl⟩, .inr ⟨hb, i, hi, rfl⟩⟩
  all_goals exact ⟨⟨rfl, rfl⟩, .inl ⟨rfl, rfl, rfl, rfl⟩⟩

/-- What a host operation other than reset can do to the contexts. -/
theorem State.hostOperation_contexts {s t : State} {op : HostOp} (h : s.hostOperation op = .next t)
    (hop : op ≠ .assertReset) :
    s.SameKey t ∧
    (s.SameStream t ∨
      s.busy = false ∧ ∃ off v i, op = .wr off .word v ∧ regAt off = .h i ∧
        t = { s with hstate := s.hstate.set i v }) := by
  obtain ⟨off, v, rfl, -, rfl⟩ | ⟨off, -, -, rfl⟩ | ⟨-, l, rfl⟩ | ⟨-, l, rfl⟩ | ⟨a, b, -, hs⟩ | ⟨a, -, hl⟩ | ⟨hr, -⟩ :=
    State.hostOperation_cases h
  · refine (s.hostWrite_contexts (regAt off) v).imp_right (.imp_right ?_)
    rintro ⟨hb, i, hi, hw⟩
    exact ⟨hb, off, v, i, rfl, hi, hw⟩
  · exact ⟨⟨rfl, rfl⟩, .inl ⟨rfl, rfl, rfl, rfl⟩⟩
  · exact ⟨⟨rfl, rfl⟩, .inl ⟨rfl, rfl, rfl, rfl⟩⟩
  · exact ⟨⟨rfl, rfl⟩, .inl ⟨rfl, rfl, rfl, rfl⟩⟩
  · obtain ⟨-, rfl⟩ | ⟨-, -, rfl⟩ | ⟨-, -, rfl⟩ := State.hostStore_cases hs <;>
      exact ⟨⟨rfl, rfl⟩, .inl ⟨rfl, rfl, rfl, rfl⟩⟩
  · obtain ⟨b, n, rfl⟩ := State.hostLoad_cases hl
    exact ⟨⟨rfl, rfl⟩, .inl ⟨rfl, rfl, rfl, rfl⟩⟩
  · exact absurd hr hop

/-- Only INIT, UPDATE, FINAL and COMPRESS change the streaming context (10_state.md R36). -/
theorem exec_stream {i : Instr} {s t : State} (h : exec i s = .next t) :
    s.SameStream t ∨ i ∈ [Instr.init, .update, .final, .compress] := by
  obtain ⟨-, hh, hb, hc, hp, -⟩ := commandFrame i s t h
  by_cases hi : i ∈ [Instr.init, .update, .final, .compress]
  · exact .inr hi
  · exact .inl ⟨hh hi, hb (by simp_all), hc (by simp_all), hp (by simp_all)⟩

/-- Only HMAC_KEY changes the key context, and on success it sets a key (10_state.md R36). -/
theorem exec_key {i : Instr} {s t : State} (h : exec i s = .next t) :
    s.SameKey t ∨ i = .hmacKey ∧ t.kvalid = true := by
  obtain ⟨e, -, rfl⟩ | ⟨u, hu, rfl⟩ := exec_cases h
  · exact .inl ⟨rfl, rfl⟩
  · cases hu with
    | hmacKey => exact .inr ⟨rfl, rfl⟩
    | _ => exact .inl ⟨rfl, rfl⟩

/-- Settles O52: a command changes what its frame allows, and a host operation other than reset only a word of H while idle. -/
theorem contextsChangeOnlyByTheirCommands : Obligations.ContextsChangeOnlyByTheirCommands := by
  unfold Obligations.ContextsChangeOnlyByTheirCommands
  intro s t hstep
  obtain ⟨hm, hb, i, hd, ht⟩ | ⟨-, -, -, rfl⟩ | ⟨hm, op, rest, ho, ht⟩ | rfl := step_cases hstep
  · refine ⟨(exec_stream ht).imp_right fun hi => .inl ⟨hm, hb, i, hi, hd⟩, (exec_key ht).imp_right ?_⟩
    rintro ⟨rfl, hk⟩
    exact .inl ⟨hm, hb, hd, hk⟩
  · exact ⟨.inl ⟨rfl, rfl, rfl, rfl⟩, .inl ⟨rfl, rfl⟩⟩
  · by_cases hop : op = .assertReset
    · have hr : s.HostMoves ∧ s.hostOps.head? = some .assertReset := ⟨hm, by simp [ho, hop]⟩
      exact ⟨.inr (.inr (.inr hr)), .inr (.inr hr)⟩
    · obtain ⟨hkey, hstream⟩ := State.hostOperation_contexts ht hop
      refine ⟨hstream.imp_right ?_, .inl hkey⟩
      rintro ⟨hb, off, v, i, rfl, hi, rfl⟩
      have hoff : (Reg.h i).offset = off := by
        rw [← hi]
        exact offset_regAt (by simp [hi])
      obtain ⟨hge, hle⟩ := hoff ▸ Reg.offset_h i
      exact .inr (.inl ⟨hm, hb, off, v, by simp [ho], hge, hle, rfl, rfl, rfl⟩)
  · exact ⟨.inl ⟨rfl, rfl, rfl, rfl⟩, .inl ⟨rfl, rfl⟩⟩

/-! ### What no step can observe -/

/-- Two runs in step: when the first outcome is a next state so is the second, and the two are related. -/
def Follows (R : State → State → Prop) (o o' : StepOutcome) : Prop :=
  ∀ t : State, o = .next t → ∃ t', o' = .next t' ∧ R t t'

namespace Follows

variable {R : State → State → Prop} {o o' : StepOutcome}

theorem next {t t' : State} (h : R t t') : Follows R (.next t) (.next t') := by
  rintro _ ⟨⟩
  exact ⟨t', rfl, h⟩

/-- A fault is no next state. -/
theorem fault {f : Fault} : Follows R (.fault f) o' := by
  intro t ht
  cases ht

/-- A refusal is no next state. -/
theorem refused {q : Refusal} : Follows R (.refused q) o' := by
  intro t ht
  cases ht

/-- Two runs that branch on the same condition, however each decides it. -/
theorem ite {c : Prop} {d d' : Decidable c} {p p' : StepOutcome} (ho : c → Follows R o o') (hp : ¬ c → Follows R p p') :
    Follows R (@ite _ c d o p) (@ite _ c d' o' p') := by
  by_cases hc : c
  · rw [if_pos hc, if_pos hc]
    exact ho hc
  · rw [if_neg hc, if_neg hc]
    exact hp hc

/-- A run follows itself. -/
theorem refl (h : ∀ t, R t t) : Follows R o o := fun t ht => ⟨t, ht, h t⟩

end Follows

/-- Two states that agree but for what cannot be observed: where `K` allows it, the key block while no key is set (10_state.md
R38); where `L` allows it, the latched word and the snapshot while no command runs (R38, 40_dispatch.md R90). -/
inductive State.Alike (K L : Prop) (s : State) : State → Prop
  | mk {k : List Byte} {w : Word} {p : Params} (key : k = s.key ∨ K ∧ s.kvalid = false)
      (latch : w = s.cmd ∧ p = s.snap ∨ L ∧ s.busy = false) :
      Alike K L s { s with key := k, cmd := w, snap := p }

/-- Two states are alike when they agree on all the rest and differ only where that is hidden. -/
theorem State.Alike.of_rest {K L : Prop} {s s' : State}
    (hrest : s' = { s with key := s'.key, cmd := s'.cmd, snap := s'.snap })
    (hkey : s'.key = s.key ∨ K ∧ s.kvalid = false) (hlatch : s'.cmd = s.cmd ∧ s'.snap = s.snap ∨ L ∧ s.busy = false) :
    s.Alike K L s' := by
  rw [hrest]
  exact .mk hkey hlatch

theorem State.Alike.refl {K L : Prop} (s : State) : s.Alike K L s := .of_rest rfl (.inl rfl) (.inl ⟨rfl, rfl⟩)

/-! The engine's side: before a key is set no command reads the key block. -/

section
variable {K L : Prop} {s : State} {k : List Byte} (hK : K) (hk : s.kvalid = false)
include hK hk

/-- Two states with different key blocks are alike. -/
theorem State.alike_withKey : s.Alike K L { s with key := k } := .of_rest rfl (.inr ⟨hK, hk⟩) (.inl ⟨rfl, rfl⟩)

/-- Two runs under the same check (60_exceptions.md R213): the errors are alike, or both go on. -/
theorem Follows.check {c : Prop} [Decidable c] {e : ErrorCode} {o o' : StepOutcome}
    (h : ¬ c → Follows (State.Alike K L) o o') :
    Follows (State.Alike K L) (if c then s.raise e else o) (if c then State.raise { s with key := k } e else o') := by
  refine .ite (fun _ => ?_) h
  rw [State.raise_eq, State.raise_eq]
  exact .next (State.alike_withKey (s := s.complete e.code) hK hk)

end

/-- Two runs that refuse the same regions (20_memory.md R60). -/
theorem Follows.refuse {R : State → State → Prop} {c : Prop} [Decidable c] {q : Refusal} {o o' : StepOutcome}
    (h : Follows R o o') : Follows R (if c then .refused q else o) (if c then .refused q else o') :=
  .ite (fun _ => .refused) fun _ => h

section
variable (s : State) (k : List Byte)

theorem State.mapped_withKey : State.mapped { s with key := k } = s.mapped := rfl

theorem State.admits_withKey : State.admits { s with key := k } = s.admits := rfl

theorem State.memWrite_withKey : State.memWrite { s with key := k } = s.memWrite := rfl

theorem State.stream_withKey : State.stream { s with key := k } = s.stream := rfl

theorem State.readRegion_withKey : State.readRegion { s with key := k } = s.readRegion := by
  funext p r
  simp only [State.readRegion, State.memRead_eq]
  rfl

end

/-- Before a key is set no command depends on the key block; HMAC_KEY replaces it. -/
theorem exec_follows {K L : Prop} {s : State} (k : List Byte) (hK : K) (hk : s.kvalid = false) (i : Instr) :
    Follows (State.Alike K L) (exec i s) (exec i { s with key := k }) := by
  have done {u : State} (hu : u.kvalid = false) : Follows (State.Alike K L) u.succeed (State.succeed { u with key := k }) :=
    .next (State.alike_withKey (s := u.complete 0) hK hu)
  cases i with
  | nop => exact done hk
  | init => exact done (u := { s with hstate := iv, buf := [], cnt := 0, phase := .accumulating }) hk
  | update =>
    simp only [exec, execUpdate, s.mapped_withKey, s.admits_withKey, s.stream_withKey, s.readRegion_withKey]
    exact .check hK hk fun _ => .check hK hk fun _ => .check hK hk fun _ => .check hK hk fun _ => .refuse
      (done (u := s.setStream (absorb s.stream (s.readRegion 0 s.snap.src))) hk)
  | final =>
    simp only [exec, execFinal, s.mapped_withKey, s.admits_withKey, s.memWrite_withKey, s.stream_withKey]
    exact .check hK hk fun _ => .check hK hk fun _ => .check hK hk fun _ => .refuse (done hk)
  | compress =>
    simp only [exec, execCompress, s.mapped_withKey, s.admits_withKey, s.readRegion_withKey]
    exact .check hK hk fun _ => .check hK hk fun _ => .check hK hk fun _ => .refuse (done hk)
  | hash =>
    simp only [exec, execHash, s.mapped_withKey, s.admits_withKey, s.memWrite_withKey, s.readRegion_withKey]
    exact .check hK hk fun _ => .check hK hk fun _ => .check hK hk fun _ => .check hK hk fun _ =>
      .check hK hk fun _ => .refuse (done hk)
  | hmacKey =>
    simp only [exec, execHmacKey, s.mapped_withKey, s.admits_withKey, s.readRegion_withKey]
    exact .check hK hk fun _ => .check hK hk fun _ => .check hK hk fun _ => .refuse (.refl State.Alike.refl)
  | hmacMac =>
    simp only [exec, execHmacMac, s.mapped_withKey, s.admits_withKey, s.memWrite_withKey, s.readRegion_withKey]
    exact .check hK hk fun hc => absurd hk hc
  | kdf =>
    simp only [exec, execKdf, s.mapped_withKey, s.admits_withKey, s.memWrite_withKey, s.readRegion_withKey]
    exact .check hK hk fun _ => .check hK hk fun _ => .check hK hk fun _ => .check hK hk fun _ =>
      .check hK hk fun _ => .check hK hk fun _ => .check hK hk fun _ => .refuse (done hk)

section
variable {K L : Prop} {s s' : State} (h : s.Alike K L s')
include h

theorem State.Alike.busy_eq : s'.busy = s.busy := by
  obtain ⟨-, -⟩ := h
  rfl

/-- While a command runs only the key block can differ. -/
theorem State.Alike.running (hb : s.busy = true) : s' = s ∨ K ∧ s.kvalid = false ∧ ∃ k, s' = { s with key := k } := by
  obtain ⟨hkey, hlatch⟩ := h
  obtain ⟨rfl, rfl⟩ := hlatch.resolve_right fun hl => by simp [hb] at hl
  obtain rfl | ⟨hK, hk⟩ := hkey
  · exact .inl rfl
  · exact .inr ⟨hK, hk, _, rfl⟩

/-- The engine's move from alike states gives alike states. -/
theorem State.Alike.engineMove : Follows (State.Alike K L) s.engineMove s'.engineMove := by
  by_cases hb : s.busy = true
  · obtain rfl | ⟨hK, hk, k, rfl⟩ := h.running hb
    · exact .refl State.Alike.refl
    · cases hd : decode s.cmd with
      | ok i =>
        rw [State.engineMove_ok hb hd, State.engineMove_ok (s := { s with key := k }) hb hd]
        exact exec_follows k hK hk i
      | error e =>
        rw [State.engineMove_error hb hd, State.engineMove_error (s := { s with key := k }) hb hd]
        exact .next (State.alike_withKey (s := s.complete 4) hK hk)
  · rw [Bool.not_eq_true] at hb
    rw [State.engineMove_idle hb, State.engineMove_idle (h.busy_eq.trans hb)]
    exact .next h

/-! The host's side: no operation reads the key block, and only through a running command does one read the latched word or the
snapshot. -/

theorem State.Alike.runningOutput_eq : s'.runningOutput = s.runningOutput := by
  obtain ⟨-, ⟨rfl, rfl⟩ | ⟨-, hb⟩⟩ := h
  · rfl
  · simp [State.runningOutput, hb]

theorem State.Alike.runningInputs_eq : s'.runningInputs = s.runningInputs := by
  obtain ⟨-, ⟨rfl, rfl⟩ | ⟨-, hb⟩⟩ := h
  · rfl
  · simp [State.runningInputs, hb]

theorem State.Alike.readReg_eq (r : Reg) : s'.readReg r = s.readReg r := by
  obtain ⟨-, -⟩ := h
  cases r <;> rfl

/-- Other operations to come leave two states alike. -/
theorem State.Alike.withHostOps (l : List HostOp) : State.Alike K L { s with hostOps := l } { s' with hostOps := l } := by
  obtain ⟨hkey, hlatch⟩ := h
  exact .of_rest rfl hkey hlatch

theorem State.Alike.hostRead (r : Reg) : State.Alike K L (s.hostRead r) (s'.hostRead r) := by
  unfold State.hostRead
  rw [h.readReg_eq r]
  obtain ⟨hkey, hlatch⟩ := h
  exact .of_rest rfl hkey hlatch

/-- A write to CMD latches both words anew; every other write leaves them alone. -/
theorem State.Alike.hostWrite (r : Reg) (v : Word) : State.Alike K L (s.hostWrite r v) (s'.hostWrite r v) := by
  unfold State.hostWrite
  rw [h.busy_eq]
  obtain ⟨hkey, hlatch⟩ := h
  split
  · exact .of_rest rfl hkey hlatch
  · cases r with
    | cmd => exact .of_rest rfl hkey (.inl ⟨rfl, rfl⟩)
    | _ => exact .of_rest rfl hkey hlatch

theorem State.Alike.hostStore (a : Addr) (b : Byte) : Follows (State.Alike K L) (s.hostStore a b) (s'.hostStore a b) := by
  simp only [State.hostStore, State.ownedOutput, State.ownedInput, h.runningOutput_eq, h.runningInputs_eq]
  obtain ⟨hkey, hlatch⟩ := h
  exact .ite (fun _ => .fault) fun _ => .ite (fun _ => .refused) fun _ =>
    .ite (fun _ => .next (.of_rest rfl hkey hlatch)) fun _ =>
    .ite (fun _ => .next (.of_rest rfl hkey hlatch)) fun _ => .next (.of_rest rfl hkey hlatch)

theorem State.Alike.hostLoad (a : Addr) : Follows (State.Alike K L) (s.hostLoad a) (s'.hostLoad a) := by
  simp only [State.hostLoad, State.ownedOutput, h.runningOutput_eq]
  obtain ⟨hkey, hlatch⟩ := h
  exact .ite (fun _ => .fault) fun _ => .ite (fun _ => .refused) fun _ =>
    .ite (fun _ => .next (.of_rest rfl hkey hlatch)) fun _ => .next (.of_rest rfl hkey hlatch)

/-- Reset takes from the two states what is the same in both. -/
theorem State.Alike.assertReset_eq : s'.assertReset = s.assertReset := by
  unfold State.assertReset State.memAfterReset
  rw [h.runningOutput_eq]
  obtain ⟨-, -⟩ := h
  rfl

/-- Every host operation from alike states gives alike states. -/
theorem State.Alike.hostOperation (op : HostOp) :
    Follows (State.Alike K L) (s.hostOperation op) (s'.hostOperation op) := by
  have hops : s'.hostOps = s.hostOps ∧ s'.irq = s.irq := by
    obtain ⟨-, -⟩ := h
    exact ⟨rfl, rfl⟩
  cases op with
  | wr off size v => exact .ite (fun _ => .next (h.hostWrite _ v)) fun _ => .refused
  | rd off size => exact .ite (fun _ => .next (h.hostRead _)) fun _ => .refused
  | wait =>
    simp only [State.hostOperation, h.readReg_eq, hops.1]
    exact .ite (fun _ => .next (h.hostRead _)) fun _ => .next ((h.hostRead _).withHostOps _)
  | waitIrq =>
    simp only [State.hostOperation, hops]
    exact .ite (fun _ => .next h) fun _ => .next (h.withHostOps _)
  | store a b => exact h.hostStore a b
  | load a => exact h.hostLoad a
  | assertReset =>
    simp only [State.hostOperation, h.assertReset_eq]
    exact .next (.refl _)

/-- Every step from alike states gives alike states. -/
theorem State.Alike.step : Follows (State.Alike K L) (step s) (step s') := by
  have hsame : s'.sched = s.sched ∧ s'.hostOps = s.hostOps := by
    obtain ⟨-, -⟩ := h
    exact ⟨rfl, rfl⟩
  obtain ⟨hsched, hops⟩ := hsame
  have hturn : State.Alike K L s.turnTaken s'.turnTaken := by
    obtain ⟨hkey, hlatch⟩ := h
    exact .of_rest rfl hkey hlatch
  obtain hm | hm := s.moves_cases
  · have hm' : s'.EngineMoves := by rwa [State.EngineMoves, hsched, h.busy_eq]
    rw [step_engine hm, step_engine hm']
    exact hturn.engineMove
  · have hm' : s'.HostMoves := by rwa [State.HostMoves, hsched, h.busy_eq]
    rw [step_host hm, step_host hm']
    cases ho : s.hostOps with
    | nil =>
      rw [State.hostMove_nil (s := s.turnTaken) ho, State.hostMove_nil (s := s'.turnTaken) (hops.trans ho)]
      exact .next hturn
    | cons op rest =>
      have hop : State.Alike K L s.opTaken s'.opTaken := by
        rw [State.opTaken, State.opTaken, hops]
        exact hturn.withHostOps s.hostOps.tail
      rw [State.hostMove_cons ho, State.hostMove_cons (hops.trans ho)]
      exact hop.hostOperation op

/-- Where nothing is hidden any more, alike states are equal. -/
theorem State.Alike.eq_of_shown (hK : K → s.kvalid = true) (hL : L → s.busy = true) : s' = s := by
  obtain ⟨hkey, hlatch⟩ := h
  obtain rfl := hkey.resolve_right fun ⟨hk, hv⟩ => by simp [hK hk] at hv
  obtain ⟨rfl, rfl⟩ := hlatch.resolve_right fun ⟨hl, hb⟩ => by simp [hL hl] at hb
  rfl

end

/-- Settles O57: states alike but for the key block step to such states. -/
theorem keyUnobservableUntilSet : Obligations.KeyUnobservableUntilSet := by
  unfold Obligations.KeyUnobservableUntilSet
  intro s t k hk hstep
  have h : State.Alike True False s { s with key := k } := State.alike_withKey trivial hk
  obtain ⟨t', ht', hR⟩ := h.step t hstep
  refine ⟨t', ht', ?_, fun hv => hR.eq_of_shown (fun _ => hv) False.elim⟩
  obtain ⟨-, ⟨rfl, rfl⟩ | ⟨hf, -⟩⟩ := hR
  · rfl
  · exact hf.elim

/-- Settles O58: states alike but for the latched word and the snapshot step to such states. -/
theorem latchedCommandUnobservableWhileIdle : Obligations.LatchedCommandUnobservableWhileIdle := by
  unfold Obligations.LatchedCommandUnobservableWhileIdle
  intro s t w p hb hstep
  have h : State.Alike False True s { s with cmd := w, snap := p } := .of_rest rfl (.inl rfl) (.inr ⟨trivial, hb⟩)
  obtain ⟨t', ht', hR⟩ := h.step t hstep
  refine ⟨t', ht', ?_, fun hv => hR.eq_of_shown False.elim fun _ => hv⟩
  obtain ⟨rfl | ⟨hf, -⟩, -⟩ := hR
  · rfl
  · exact hf.elim

/-! ### Reset values -/

/-- Settles O6: the reset state is a literal, and IV is the table of 41_compression.md R116. -/
theorem resetValues : Obligations.ResetValues := by
  unfold Obligations.ResetValues
  simp [iv, Params.zero, State.irq]

/-! ### The status and control words -/

/-- STATUS at any time is a packed word with the current WERR. -/
theorem State.readReg_status (s : State) :
    ∃ b d p k l e, s.readReg .status = packStatus b d s.werr p k l e := by
  cases hb : s.busy with
  | false => exact ⟨_, _, _, _, _, _, State.readReg_idle hb .status⟩
  | true => exact ⟨_, _, _, _, _, _, State.readReg_busy hb .status⟩

/-- CMD reads 0 at any time (10_state.md R33). -/
@[simp] theorem State.readReg_cmd (s : State) : s.readReg .cmd = 0 := ite_self _

/-- A reserved offset reads 0 at any time (10_state.md R33). -/
@[simp] theorem State.readReg_reserved (s : State) : s.readReg .reserved = 0 := ite_self _

/-- CTRL reads its value at any time (10_state.md R28, R32). -/
@[simp] theorem State.readReg_ctrl (s : State) : s.readReg .ctrl = s.ctrlWord := ite_self _

@[simp] theorem State.hostWrite_status (s : State) (v : Word) : s.hostWrite .status v = s.writeStatus v :=
  s.hostWrite_unguarded rfl v

@[simp] theorem State.hostWrite_ctrl (s : State) (v : Word) : s.hostWrite .ctrl v = s.writeCtrl v :=
  s.hostWrite_unguarded rfl v

@[simp] theorem State.hostWrite_reserved (s : State) (v : Word) : s.hostWrite .reserved v = s :=
  s.hostWrite_unguarded rfl v

/-- A packed status word has no bit outside its fields, seen as one mask (10_state.md R27). -/
theorem packStatus_and_reserved (b d w p k : Bool) (l : BitVec 6) (e : BitVec 8) :
    packStatus b d w p k l e &&& 0xFF00C0E0 = 0 := by
  apply BitVec.eq_of_getLsbD_eq
  intro i hi
  simp only [packStatus, BitVec.getLsbD_and, BitVec.getLsbD_append, BitVec.getLsbD_ofBool, BitVec.ofNat_eq_ofNat,
    BitVec.getLsbD_zero]
  interval_cases i <;> simp

/-- CTRL as a number (10_state.md R28). -/
theorem State.ctrlWord_toNat (s : State) : s.ctrlWord.toNat = s.ie.toNat := by
  unfold State.ctrlWord
  cases s.ie <;> rfl

/-- Settles O14: STATUS is a packed word, whose fields read back, and a write clears DONE and WERR bit by bit. -/
theorem statusWordFields : Obligations.StatusWordFields := by
  unfold Obligations.StatusWordFields
  refine ⟨fun s hb => ?_, fun s v => ?_, rfl⟩
  · have hread : s.readReg .status = s.idleStatus := State.readReg_idle hb .status
    rw [hread, State.idleStatus]
    obtain ⟨h0, h1, h2, h3, h4, hlen, herr⟩ :=
      packStatus_fields s.busy s.done s.werr s.phase.bit s.kvalid (BitVec.ofNat 6 s.buf.length) s.err
    obtain ⟨hr1, hr2, hr3⟩ :=
      packStatus_reserved s.busy s.done s.werr s.phase.bit s.kvalid (BitVec.ofNat 6 s.buf.length) s.err
    refine ⟨h0, h1, h2, ?_, h4, fun hl => ?_, herr, hr1, hr2, hr3⟩
    · rw [h3]
      cases s.phase <;> decide
    · rw [hlen, BitVec.toNat_ofNat]
      omega
  · refine ⟨_, _, s.hostWrite_status v, ?_⟩
    simp +contextual

/-- Settles O15: CTRL is IE as a number, at any time. -/
theorem controlWord : Obligations.ControlWord := by
  unfold Obligations.ControlWord
  refine ⟨State.hostWrite_ctrl, fun s => ?_, fun s h => ?_, fun s h => ?_, rfl⟩
  · rw [State.readReg_ctrl, State.ctrlWord_toNat]
  · simp [State.irq, h]
  · simp [State.irq, h]

/-! ### Accesses to the window -/

theorem regAt_status : regAt 0x004 = .status := regAt_offset .status

theorem regAt_ctrl : regAt 0x008 = .ctrl := regAt_offset .ctrl

/-- Settles O13: the width and the alignment are all that an access is held to, and a read only returns the value. -/
theorem onlyAlignedWordAccesses : Obligations.OnlyAlignedWordAccesses := by
  unfold Obligations.OnlyAlignedWordAccesses
  intro s off size v
  refine ⟨fun h => ?_, ?_⟩
  · have hbad : windowAccessOk off size = false := by
      simp only [windowAccessOk, Bool.and_eq_false_iff, decide_eq_false_iff_not]
      exact h
    simp [State.hostOperation, hbad]
  · rintro ⟨rfl, hal⟩
    refine ⟨s.hostOperation_wr v hal, s.hostOperation_rd hal, fun hb => ?_, fun hb => ?_⟩ <;>
      simp [State.hostRead, hb]

/-- A host's turn with an aligned write. -/
theorem step_write {s : State} {off : Offset} {v : Word} {rest : List HostOp} (hm : s.HostMoves)
    (ho : s.hostOps = .wr off .word v :: rest) (hal : off.toNat % 4 = 0) :
    step s = .next (s.opTaken.hostWrite (regAt off) v) := by
  rw [step_host hm, State.hostMove_cons ho, State.hostOperation_wr _ _ hal]

/-- The guarded offsets are those of the guarded registers (10_state.md R25, R31). -/
theorem guardedOffsets_eq : guardedOffsets = (windowRegs.filter Reg.guarded).map Reg.offset := by decide

/-- Settles O11: a guarded offset is that of a guarded register, and CTRL and STATUS are not guarded. -/
theorem writesWhileBusyAreDropped : Obligations.WritesWhileBusyAreDropped := by
  unfold Obligations.WritesWhileBusyAreDropped
  intro s off v rest hm hb ho
  refine ⟨fun hoff => ?_, ?_, ?_⟩
  · rw [guardedOffsets_eq, List.mem_map] at hoff
    obtain ⟨r, hr, rfl⟩ := hoff
    obtain ⟨-, hg⟩ := List.mem_filter.mp hr
    rw [step_write hm ho r.offset_aligned, regAt_offset, State.hostWrite_dropped (s := s.opTaken) hb hg]
  · rintro rfl
    rw [step_write hm ho rfl, regAt_ctrl, State.hostWrite_ctrl]
    rfl
  · rintro rfl
    rw [step_write hm ho rfl, regAt_status, State.hostWrite_status]
    refine ⟨_, rfl, ?_⟩
    simp +contextual [hb]

/-- No register stands at a reserved offset (10_state.md R25, R33). -/
theorem windowRegs_offset_not_reserved : ∀ r ∈ windowRegs,
    ¬ (r.offset = 0x00C ∨ (0x044 ≤ r.offset.toNat ∧ r.offset.toNat ≤ 0x04C) ∨
      (0x058 ≤ r.offset.toNat ∧ r.offset.toNat ≤ 0x05C) ∨ 0x080 ≤ r.offset.toNat) := by decide

/-- Settles O12: a reserved offset is no register's, STATUS and CTRL are packed words, and a write to them looks at no reserved
bit. -/
theorem reservedOffsetsAndBits : Obligations.ReservedOffsetsAndBits := by
  unfold Obligations.ReservedOffsetsAndBits
  intro s off v _
  refine ⟨s.readReg_cmd, fun hoff => ?_, ?_, ?_, ?_, ?_⟩
  · have hreg : regAt off = .reserved :=
      regAt_eq_reserved fun r hr he => windowRegs_offset_not_reserved r hr (he ▸ hoff)
    rw [hreg]
    exact ⟨s.readReg_reserved, s.hostWrite_reserved v⟩
  · obtain ⟨b, d, p, k, l, e, hs⟩ := s.readReg_status
    rw [regAt_status, hs, packStatus_and_reserved]
  · rw [regAt_ctrl, State.readReg_ctrl, State.ctrlWord]
    cases s.ie <;> rfl
  · rw [regAt_status, State.hostWrite_status, State.hostWrite_status]
    simp [State.writeStatus]
  · rw [regAt_ctrl, State.hostWrite_ctrl, State.hostWrite_ctrl]
    simp [State.writeCtrl]

/-! ### Reading and writing single registers -/

/-- H0..H7 stand at 0x060 upward (10_state.md R25). -/
theorem regAt_h (i : Fin 8) : regAt (0x060 + 4 * BitVec.ofNat 12 i.val) = .h i := regAt_offset (.h i)

/-- Settles O17: H0..H7 read and write the words of the hash state, whose encodings the digest concatenates. -/
theorem hashRegisterAccess : Obligations.HashRegisterAccess := by
  unfold Obligations.HashRegisterAccess
  intro s i v hb
  rw [regAt_h]
  refine ⟨State.readReg_idle hb _, ?_, s.hstate.set i v, State.hostWrite_idle hb _ v, ?_, fun j hj => ?_⟩
  · fin_cases i <;> rfl
  · rw [HashState.get_set, if_pos rfl]
  · rw [HashState.get_set, if_neg hj]

theorem regAt_bitcntLo : regAt 0x050 = .bitcntLo := regAt_offset .bitcntLo

theorem regAt_bitcntHi : regAt 0x054 = .bitcntHi := regAt_offset .bitcntHi

/-- Settles O18: the two registers read the halves of the counter, and are not guarded. -/
theorem bitCounterRegisters : Obligations.BitCounterRegisters := by
  unfold Obligations.BitCounterRegisters
  rw [regAt_bitcntLo, regAt_bitcntHi]
  refine ⟨fun s hb => ?_, fun s v => ⟨s.hostWrite_unguarded rfl v, s.hostWrite_unguarded rfl v⟩⟩
  rw [State.readReg_idle hb, State.readReg_idle hb]
  exact ⟨loHalf_toNat s.cnt, hiHalf_toNat s.cnt⟩

/-- Settles O21: STATUS alone shows the buffer, by its length, and no register shows the key block. -/
theorem bufferAndKeyNotReadable : Obligations.BufferAndKeyNotReadable := by
  unfold Obligations.BufferAndKeyNotReadable
  intro s r b k hlen
  cases r with
  | status => simp [State.readReg, State.busyRead, State.busyStatus, State.idleRead, State.idleStatus, hlen]
  | _ => rfl

/-- Every register but STATUS, H0..H7 and BITCNT reads at any time what it reads while idle (10_state.md R32). -/
theorem State.readReg_eq_idleRead (s : State) {r : Reg} (hstatus : r ≠ .status) (hlo : r ≠ .bitcntLo) (hhi : r ≠ .bitcntHi)
    (hh : ∀ i, r ≠ .h i) : s.readReg r = s.idleRead r := by
  cases r with
  | status => exact absurd rfl hstatus
  | bitcntLo => exact absurd rfl hlo
  | bitcntHi => exact absurd rfl hhi
  | h i => exact absurd rfl (hh i)
  | _ => exact ite_self _

/-- What the host reads while a command runs moves the draw counter on (10_state.md R32). -/
theorem State.hostRead_draws_busy {s : State} (hb : s.busy = true) (r : Reg) : (s.hostRead r).draws = s.draws + 1 := by
  simp [State.hostRead, hb]

/-- Settles O16: STATUS is packed from the fixed fields and those of the free word, and the other registers read the free word or
what they read while idle. -/
theorem readsWhileBusy : Obligations.ReadsWhileBusy := by
  unfold Obligations.ReadsWhileBusy
  intro s hb
  have hread (r : Reg) : s.readReg r = s.busyRead (Config.freeWord s.draws) r := State.readReg_busy hb r
  have hstatus : s.readReg .status = s.busyStatus (Config.freeWord s.draws) := hread .status
  rw [hstatus, State.busyStatus]
  obtain ⟨h0, h1, h2, h3, h4, hlen, herr⟩ := packStatus_fields true false s.werr
    ((Config.freeWord s.draws).getLsbD 3) ((Config.freeWord s.draws).getLsbD 4) ((Config.freeWord s.draws).extractLsb' 8 6) 0
  refine ⟨h0, h1, h2, herr, h3, h4, hlen, fun r hr => ?_, fun i => hread _, hread _, hread _, State.hostRead_draws_busy hb⟩
  have hsteady : r ≠ .status ∧ r ≠ .bitcntLo ∧ r ≠ .bitcntHi ∧ ∀ i, r ≠ .h i := by
    refine ⟨?_, ?_, ?_, fun i => ?_⟩ <;> rintro rfl <;> simp at hr
  obtain ⟨n1, n2, n3, n4⟩ := hsteady
  rw [State.readReg_eq_idleRead s n1 n2 n3 n4, State.readReg_eq_idleRead _ n1 n2 n3 n4]
  cases r with
  | status => exact absurd rfl n1
  | _ => rfl

/-! ### The parameter registers -/

/-- The parameter registers (10_state.md R25, R26). -/
def Reg.parameter (r : Reg) : Bool :=
  match r with
  | .cmd => false
  | .status => false
  | .ctrl => false
  | .bitcntLo => false
  | .bitcntHi => false
  | .h _ => false
  | .reserved => false
  | _ => true

/-- A 64-bit value is its HI half times 2^32 plus its LO half. -/
theorem toNat_eq_halves (d : DWord) : d.toNat = (hiHalf d).toNat * 2 ^ 32 + (loHalf d).toNat := by
  rw [hiHalf_toNat, loHalf_toNat]
  omega

/-- A write to a parameter register while idle writes the parameters and nothing else. -/
theorem State.hostWrite_parameter {s : State} (hb : s.busy = false) {r : Reg} (hr : r.parameter = true) (v : Word) :
    s.hostWrite r v = { s with params := s.params.write r v } := by
  rw [State.hostWrite_idle hb]
  cases r <;> simp [Reg.parameter, State.applyWrite] at hr ⊢

/-- A parameter register reads the value written. -/
theorem State.idleRead_write_same (s : State) {r : Reg} (hr : r.parameter = true) (v : Word) :
    State.idleRead { s with params := s.params.write r v } r = v := by
  cases r <;> simp [Reg.parameter, State.idleRead, Params.write] at hr ⊢

/-- Every other register reads as before: another parameter is another field, and a half keeps the other. -/
theorem State.idleRead_write_other (s : State) {r r' : Reg} (hne : r' ≠ r) (v : Word) :
    State.idleRead { s with params := s.params.write r v } r' = s.idleRead r' := by
  cases r <;> cases r' <;> simp [State.idleRead, Params.write, State.idleStatus, State.ctrlWord] at hne ⊢

/-- The offsets of the parameter registers (10_state.md R25). -/
theorem parameterOffsets_eq :
    [(0x010 : Offset), 0x014, 0x018, 0x01C, 0x020, 0x024, 0x028, 0x02C, 0x030, 0x034, 0x038, 0x03C, 0x040] =
      (windowRegs.filter Reg.parameter).map Reg.offset := by decide

/-- Settles O19: a write to a parameter register is read back there, and at no other offset stands the same register. -/
theorem parameterHalves : Obligations.ParameterHalves := by
  unfold Obligations.ParameterHalves
  intro s v hb
  simp only [State.readReg_idle hb]
  refine ⟨toNat_eq_halves _, toNat_eq_halves _, toNat_eq_halves _, toNat_eq_halves _, toNat_eq_halves _, toNat_eq_halves _, rfl,
    fun off hoff => ?_⟩
  rw [parameterOffsets_eq, List.mem_map] at hoff
  obtain ⟨r, hr, rfl⟩ := hoff
  obtain ⟨-, hpar⟩ := List.mem_filter.mp hr
  have hread : State.readReg { s with params := s.params.write r v } =
      State.idleRead { s with params := s.params.write r v } :=
    funext (State.readReg_idle (s := { s with params := s.params.write r v }) hb)
  refine ⟨s.params.write r v, ?_, ?_, fun off' _ hne => ?_⟩
  · rw [regAt_offset, State.hostWrite_parameter hb hpar]
  · rw [regAt_offset, hread, State.idleRead_write_same s hpar]
  · have hreg : regAt off' ≠ r := by
      have hres : regAt r.offset ≠ .reserved := by
        rw [regAt_offset]
        rintro rfl
        cases hpar
      simpa using regAt_ne hres hne
    rw [hread, State.idleRead_write_other s hreg]

end Sys2Proof.Machine
end

section
/-!
SUPPORT. The family of 20_memory.md: the canonical form of the memory, regions, what the host reads and writes in system memory,
what a command leaves of the memory (`exec_memory`), and the checks of a command as one chain of conditions (`Instr.checked`).
-/
namespace Sys2Proof.Machine

/-! ### The canonical form -/

/-- The canonical form of a memory that lists a byte, as facts about numbers. -/
theorem Memory.wfFrom_cons_iff {lo k : Nat} {b : Byte} {m : Memory} :
    Memory.wfFrom lo ((k, b) :: m) = true ↔ lo ≤ k ∧ k < 2 ^ 64 ∧ b ≠ unlistedByte ∧ m.wfFrom (k + 1) = true := by
  simp [Memory.wfFrom, and_assoc]

/-- The key a memory lists first is read as its byte. -/
theorem Memory.lookup_cons_self (k : Nat) (b : Byte) (m : Memory) : Memory.lookup ((k, b) :: m) k = b := if_pos rfl

/-- Every other key is looked up in the rest. -/
theorem Memory.lookup_cons_ne {k a : Nat} (b : Byte) (m : Memory) (h : k ≠ a) :
    Memory.lookup ((k, b) :: m) a = m.lookup a := if_neg h

/-- Below the key it lists first a canonical memory lists nothing. -/
theorem Memory.lookup_unlisted_of_lt {lo k a : Nat} {b : Byte} {m : Memory} (hw : Memory.wfFrom lo ((k, b) :: m) = true)
    (h : a < k) : Memory.lookup ((k, b) :: m) a = unlistedByte := by
  obtain ⟨-, hk, hb, hm⟩ := Memory.wfFrom_cons_iff.mp hw
  exact Memory.lookup_below h (Memory.wfFrom_cons_iff.mpr ⟨le_refl k, hk, hb, hm⟩)

/-- Two canonical memories with the same lookups are equal: they list the same key first, with the same byte, and below it
nothing. -/
theorem Memory.eq_of_lookup_eq : ∀ {lo : Nat} {m m' : Memory}, m.wfFrom lo = true → m'.wfFrom lo = true →
    (∀ a, a < 2 ^ 64 → m.lookup a = m'.lookup a) → m = m'
  | _, [], [], _, _, _ => rfl
  | _, [], (k, b) :: m', _, hw', h => by
    obtain ⟨-, hk, hb, -⟩ := Memory.wfFrom_cons_iff.mp hw'
    have hread := h k hk
    rw [Memory.lookup_cons_self] at hread
    exact absurd hread.symm hb
  | _, (k, b) :: m, [], hw, _, h => by
    obtain ⟨-, hk, hb, -⟩ := Memory.wfFrom_cons_iff.mp hw
    have hread := h k hk
    rw [Memory.lookup_cons_self] at hread
    exact absurd hread hb
  | _, (k, b) :: m, (k', b') :: m', hw, hw', h => by
    obtain ⟨-, hk, hb, hm⟩ := Memory.wfFrom_cons_iff.mp hw
    obtain ⟨-, hk', hb', hm'⟩ := Memory.wfFrom_cons_iff.mp hw'
    obtain hlt | rfl | hlt := Nat.lt_trichotomy k k'
    · have hread := h k hk
      rw [Memory.lookup_cons_self, Memory.lookup_unlisted_of_lt hw' hlt] at hread
      exact absurd hread hb
    · have hbyte := h k hk
      rw [Memory.lookup_cons_self, Memory.lookup_cons_self] at hbyte
      rw [hbyte, Memory.eq_of_lookup_eq hm hm' fun a ha => ?_]
      obtain rfl | hne := eq_or_ne k a
      · rw [Memory.lookup_below (Nat.lt_succ_self k) hm, Memory.lookup_below (Nat.lt_succ_self k) hm']
      · have hread := h a ha
        rwa [Memory.lookup_cons_ne _ _ hne, Memory.lookup_cons_ne _ _ hne] at hread
    · have hread := h k' hk'
      rw [Memory.lookup_cons_self, Memory.lookup_unlisted_of_lt hw hlt] at hread
      exact absurd hread.symm hb'

/-- Two canonical memories that read alike everywhere are equal. -/
theorem Memory.eq_of_read_eq {m m' : Memory} (hw : m.wf = true) (hw' : m'.wf = true)
    (h : ∀ a : Addr, m.read a = m'.read a) : m = m' :=
  Memory.eq_of_lookup_eq hw hw' fun a ha => by
    have hread := h (BitVec.ofNat 64 a)
    rwa [Memory.read, Memory.read, BitVec.toNat_ofNat, Nat.mod_eq_of_lt ha] at hread

/-- Settles O55: the laws of a write, and a canonical memory is fixed by what it reads. -/
theorem memoryCanonicalForm : Obligations.MemoryCanonicalForm := by
  unfold Obligations.MemoryCanonicalForm
  exact ⟨fun m a a' b hw => ⟨Memory.write_wf hw a b, Memory.read_write hw a a' b⟩, fun m m' => Memory.eq_of_read_eq⟩

/-! ### Regions -/

/-- Settles O53: `mapped` looks at each byte by index, and a region of length 0 has none. -/
theorem mappedMeansEveryByte : Obligations.MappedMeansEveryByte := by
  unfold Obligations.MappedMeansEveryByte
  intro s r
  refine ⟨fun _ => everyByte_iff _ _ _, fun h => ?_⟩
  rw [State.mapped, h]
  rfl

/-- Settles O54: a byte in both regions lies below both ends, and the higher of the two bases is one. -/
theorem overlapMeansSharedByte : Obligations.OverlapMeansSharedByte := by
  unfold Obligations.OverlapMeansSharedByte
  intro r1 r2 _ _
  simp only [Region.overlaps_iff, Region.covers_iff]
  constructor
  · rintro ⟨h1, h2, h12, h21⟩
    obtain hle | hle := le_total r1.base.toNat r2.base.toNat
    · exact ⟨r2.base, by omega, by omega⟩
    · exact ⟨r1.base, by omega, by omega⟩
  · rintro ⟨a, h1, h2⟩
    omega

/-! ### The host in system memory -/

/-- The engine reads a free value from a raced byte (20_memory.md R65 (c)). -/
theorem State.inputByte_of_mem_races {s : State} {a : Addr} (h : a ∈ s.races) (p : Nat) :
    s.inputByte p a = Config.raceByte s.draws p a := by
  simp [State.inputByte, h]

section
variable {s : State} {a : Addr} (hm : s.mappedAddr a = true) (hd : s.deviceAddr a = false)
include hm hd

/-- A host write to an existing byte of plain memory gives a next state. -/
theorem State.hostStore_next (b : Byte) : ∃ t, s.hostStore a b = .next t := by
  simp only [State.hostStore, hm, hd]
  cases s.ownedOutput a <;> cases s.ownedInput a <;> exact ⟨_, rfl⟩

/-- A host read of an existing byte of plain memory returns the byte, or a free value in the running output region. -/
theorem State.hostLoad_next : ∃ t, s.hostLoad a = .next t ∧ t.mem = s.mem ∧
    t.mdata = if s.ownedOutput a then Config.freeByte s.draws else s.mem.read a := by
  simp only [State.hostLoad, hm, hd]
  cases s.ownedOutput a <;> exact ⟨_, rfl, rfl, rfl⟩

end

/-- Settles O56: the laws of the host's store, one case per owner of the byte, and of its load. -/
theorem hostMemoryAccess : Obligations.HostMemoryAccess := by
  unfold Obligations.HostMemoryAccess
  intro s a b hw hm hd
  obtain ⟨t, ht⟩ := State.hostStore_next hm hd b
  refine ⟨⟨t, ht, ?_⟩, State.hostLoad_next hm hd⟩
  have hother (c : Byte) (a' : Addr) (hne : a' ≠ a) : (s.mem.write a c).read a' = s.mem.read a' := by
    rw [Memory.read_write hw, if_neg hne]
  have hsame (c : Byte) : (s.mem.write a c).read a = c := by rw [Memory.read_write hw, if_pos rfl]
  have hraced : a ∈ s.races.insert a := List.mem_insert_self
  obtain ⟨ho, rfl⟩ | ⟨ho, hi, rfl⟩ | ⟨ho, hi, rfl⟩ := State.hostStore_cases ht
  · exact ⟨hother _, by simp [ho], fun _ => hsame _, fun _ => ⟨hraced, State.inputByte_of_mem_races hraced⟩, by simp [ho]⟩
  · exact ⟨hother _, fun _ => hsame _, by simp [ho], fun _ => ⟨hraced, State.inputByte_of_mem_races hraced⟩, by simp [hi]⟩
  · exact ⟨hother _, fun _ => hsame _, by simp [ho], by simp [ho, hi], fun _ => rfl⟩

/-! ### What a command leaves of the memory -/

/-- `s.StoresTo i t`: from `s` the command `i` succeeded and stored bytes over the whole of its output region, which is
well-formed. -/
def State.StoresTo (s : State) (i : Instr) (t : State) : Prop :=
  ∃ (o : Region) (v : List Byte), Instr.outputRegion i s.snap = some o ∧ o.wellFormed = true ∧ v.length = o.len.toNat ∧
    t.err = 0 ∧ t.mem = s.memWrite o.base v

/-- A store leaves every byte outside the output region. -/
theorem State.StoresTo.read_eq {s t : State} {i : Instr} (h : s.StoresTo i t) (hw : s.mem.wf = true) {o : Region}
    (ho : Instr.outputRegion i s.snap = some o) {a : Addr} (ha : o.covers a = false) : t.mem.read a = s.mem.read a := by
  obtain ⟨o', v, ho', hwell, hlen, -, hmem⟩ := h
  obtain rfl : o' = o := Option.some.inj (ho'.symm.trans ho)
  obtain ⟨-, -, -, hframe⟩ := State.memWrite_stored hw ((Region.wellFormed_iff _).mp hwell) hlen
  rw [hmem, hframe a (.inl ha)]

/-- A command that gives a next state left the memory alone, or succeeded with a store into its output region. -/
theorem exec_memory {i : Instr} {s t : State} (h : exec i s = .next t) : t.mem = s.mem ∨ s.StoresTo i t := by
  have herr (he : s.ErrsTo t) : t.mem = s.mem := by
    obtain ⟨e, -, rfl⟩ := he
    rfl
  cases i with
  | final =>
    refine (execFinal_next h).imp herr ?_
    rintro ⟨-, hd, -, -, rfl⟩
    exact ⟨_, _, rfl, hd, digest_length _, rfl, rfl⟩
  | hash =>
    refine (execHash_next h).imp herr ?_
    rintro ⟨-, hd, -, -, -, -, -, -, rfl⟩
    exact ⟨_, _, rfl, hd, sha256_length _, rfl, rfl⟩
  | hmacMac =>
    refine (execHmacMac_next h).imp herr ?_
    rintro ⟨-, -, hd, -, -, -, -, -, -, rfl⟩
    exact ⟨_, _, rfl, hd, hmacK_length _ _, rfl, rfl⟩
  | kdf =>
    refine (execKdf_next h).imp herr ?_
    rintro ⟨-, -, hd, -, -, -, -, -, -, -, -, -, -, -, rfl⟩
    exact ⟨_, _, rfl, hd, pbkdf_length _ _ _ _, rfl, rfl⟩
  | _ =>
    obtain he | ⟨u, hu, rfl⟩ := exec_cases h
    · exact .inl (herr he)
    · cases hu
      exact .inl rfl

/-- Settles O51: a store is a success, needs an output region, and leaves what is outside it. -/
theorem memoryFrame : Obligations.MemoryFrame := by
  unfold Obligations.MemoryFrame
  intro i s t hw ht
  obtain hmem | hst := exec_memory ht
  · simp [hmem]
  · refine ⟨fun hi => ?_, fun he => ?_, fun hi a ha => ?_, fun hi a ha => ?_⟩
    · obtain ⟨o, -, ho, -⟩ := hst
      simp only [List.mem_cons, List.not_mem_nil, or_false] at hi
      obtain rfl | rfl | rfl | rfl | rfl := hi <;> cases ho
    · obtain ⟨-, -, -, -, -, hz, -⟩ := hst
      exact absurd hz he
    · simp only [List.mem_cons, List.not_mem_nil, or_false] at hi
      obtain rfl | rfl | rfl := hi <;> exact hst.read_eq hw rfl ha
    · subst hi
      exact hst.read_eq hw rfl ha

/-! ### The checks of a command -/

/-- Two outcomes that branch alike on one check, however each states and decides it. -/
theorem ite_check {c c' : Prop} {d : Decidable c} {d' : Decidable c'} {x o o' : StepOutcome} (hc : c ↔ c')
    (h : ¬ c' → o = o') : @ite _ c d x o = @ite _ c' d' x o' :=
  ite_congr (propext hc) (fun _ => rfl) h

open Classical in
/-- The checks of a command in the order of 60_exceptions.md R213, then the refusal of a device region (20_memory.md R60), then
the outcome `o`. `exec_eq_checked` ties it to `exec`. -/
noncomputable def Instr.checked (i : Instr) (s : State) (o : StepOutcome) : StepOutcome :=
  if Instr.phaseFails i s then s.raise .sequenceError
  else if Instr.keyFails i s then s.raise .keyNotSet
  else if Instr.argumentFails i s then s.raise .invalidArgument
  else if Instr.requestFails i s then s.raise .requestTooLarge
  else if Instr.lengthFails i s then s.raise .unsupportedLength
  else if Instr.mappingFails i s then s.raise .unmapped
  else if Instr.deviceNamed i s then .refused .deviceRegion
  else o

namespace Instr

variable {i : Instr} {s : State}

/-- The first check that fails gives the error. -/
theorem checked_of_firstFailure {e : ErrorCode} (h : FirstFailure i s e) (o : StepOutcome) :
    checked i s o = .next (s.complete e.code) := by
  cases e with
  | illegalCommand => exact h.elim
  | sequenceError => exact if_pos h
  | keyNotSet =>
    obtain ⟨h1, h2⟩ := h
    rw [checked, if_neg h1, if_pos h2, State.raise_eq]
  | invalidArgument =>
    obtain ⟨h1, h2, h3⟩ := h
    rw [checked, if_neg h1, if_neg h2, if_pos h3, State.raise_eq]
  | requestTooLarge =>
    obtain ⟨h1, h2, h3, h4⟩ := h
    rw [checked, if_neg h1, if_neg h2, if_neg h3, if_pos h4, State.raise_eq]
  | unsupportedLength =>
    obtain ⟨h1, h2, h3, h4, h5⟩ := h
    rw [checked, if_neg h1, if_neg h2, if_neg h3, if_neg h4, if_pos h5, State.raise_eq]
  | unmapped =>
    obtain ⟨h1, h2, h3, h4, h5, h6⟩ := h
    rw [checked, if_neg h1, if_neg h2, if_neg h3, if_neg h4, if_neg h5, if_pos h6, State.raise_eq]

open Classical in
/-- When no check fails a region that names a device is refused, and else the command goes on. -/
theorem checked_of_passes (h : Passes i s) (o : StepOutcome) :
    checked i s o = if deviceNamed i s then .refused .deviceRegion else o := by
  obtain ⟨h1, h2, h3, h4, h5, h6⟩ := h
  rw [checked, if_neg h1, if_neg h2, if_neg h3, if_neg h4, if_neg h5, if_neg h6]

/-- The regions of each command (30_encoding.md R75), inputs first. -/
@[simp] theorem regions_eq (p : Params) :
    regions .nop p = [] ∧ regions .init p = [] ∧ regions .update p = [p.src] ∧ regions .final p = [p.dst32] ∧
    regions .compress p = [p.src] ∧ regions .hash p = [p.src, p.dst32] ∧ regions .hmacKey p = [p.src] ∧
    regions .hmacMac p = [p.src, p.dst32] ∧ regions .kdf p = [p.src, p.aux, p.dstOut] :=
  ⟨rfl, rfl, rfl, rfl, rfl, rfl, rfl, rfl, rfl⟩

/-- Check 4 (60_exceptions.md R211), in the terms of the meanings. -/
theorem argumentFails_iff : argumentFails i s ↔
    (∃ r ∈ regions i s.snap, r.wellFormed = false) ∨ (i = .compress ∧ s.snap.srcLen ≠ 64) ∨
    (∃ o, outputRegion i s.snap = some o ∧ ∃ r ∈ inputRegions i s.snap, o.overlaps r = true) := by
  simp [argumentFails, Region.wellFormed, ← BitVec.toNat_inj]

/-- When check 4 passes every region is well-formed. -/
theorem wellFormed_of_argument (h : ¬ argumentFails i s) {r : Region} (hr : r ∈ regions i s.snap) :
    r.base.toNat + r.len.toNat ≤ 2 ^ 64 :=
  not_lt.mp fun hlt => h (.inl ⟨r, hr, hlt⟩)

/-- Check 7 (60_exceptions.md R219), in the terms of the meanings. -/
theorem mappingFails_iff (h : ¬ argumentFails i s) : mappingFails i s ↔ ∃ r ∈ regions i s.snap, s.mapped r = false :=
  exists_congr fun _ => and_congr_right fun hr => (State.mapped_false_iff (wellFormed_of_argument h hr)).symm

/-- A region names a device (20_memory.md R60), in the terms of the meanings. -/
theorem deviceNamed_iff (h : ¬ argumentFails i s) : deviceNamed i s ↔ ∃ r ∈ regions i s.snap, s.admits r = false :=
  exists_congr fun _ => and_congr_right fun hr => (State.admits_false_iff (wellFormed_of_argument h hr)).symm

/-- Every command makes its checks in the one order, and succeeds when none stops it. -/
theorem exec_eq_checked (i : Instr) (s : State) : ∃ u, exec i s = checked i s (State.succeed u) := by
  unfold checked phaseFails keyFails requestFails lengthFails
  cases i with
  | nop =>
    refine ⟨s, ?_⟩
    simp [exec, execNop, argumentFails, mappingFails, deviceNamed, outputRegion]
  | init =>
    refine ⟨{ s with hstate := iv, buf := [], cnt := 0, phase := .accumulating }, ?_⟩
    simp [exec, execInit, argumentFails, mappingFails, deviceNamed, outputRegion]
  | update =>
    simp only [exec, execUpdate, reduceCtorEq, or_false, false_and, true_and, if_false]
    exact ⟨_, ite_check Iff.rfl fun _ =>
      ite_check (by simp [argumentFails_iff, inputRegions, outputRegion]) fun ha =>
      ite_check Iff.rfl fun _ =>
      ite_check (by simp [mappingFails_iff ha]) fun _ => ite_check (by simp [deviceNamed_iff ha]) fun _ => rfl⟩
  | final =>
    simp only [exec, execFinal, reduceCtorEq, false_or, false_and, true_and, if_false]
    exact ⟨_, ite_check Iff.rfl fun _ =>
      ite_check (by simp [argumentFails_iff, inputRegions, outputRegion]) fun ha =>
      ite_check (by simp [mappingFails_iff ha]) fun _ => ite_check (by simp [deviceNamed_iff ha]) fun _ => rfl⟩
  | compress =>
    simp only [exec, execCompress, reduceCtorEq, or_self, false_and, if_false, ← ite_or]
    exact ⟨_, ite_check (by simp [argumentFails_iff, inputRegions, outputRegion]) fun ha =>
      ite_check (by simp [mappingFails_iff ha]) fun _ => ite_check (by simp [deviceNamed_iff ha]) fun _ => rfl⟩
  | hash =>
    simp only [exec, execHash, reduceCtorEq, or_self, false_and, if_false, ← ite_or]
    exact ⟨_, ite_check (by simp [argumentFails_iff, inputRegions, outputRegion, or_assoc]) fun ha =>
      ite_check Iff.rfl fun _ =>
      ite_check (by simp [mappingFails_iff ha]) fun _ => ite_check (by simp [deviceNamed_iff ha]) fun _ => rfl⟩
  | hmacKey =>
    simp only [exec, execHmacKey, reduceCtorEq, or_self, false_and, if_false]
    exact ⟨_, ite_check (by simp [argumentFails_iff, inputRegions, outputRegion]) fun ha =>
      ite_check Iff.rfl fun _ =>
      ite_check (by simp [mappingFails_iff ha]) fun _ => ite_check (by simp [deviceNamed_iff ha]) fun _ => rfl⟩
  | hmacMac =>
    simp only [exec, execHmacMac, reduceCtorEq, or_self, false_and, true_and, if_false, ← ite_or]
    exact ⟨_, ite_check Iff.rfl fun _ =>
      ite_check (by simp [argumentFails_iff, inputRegions, outputRegion, or_assoc]) fun ha =>
      ite_check Iff.rfl fun _ =>
      ite_check (by simp [mappingFails_iff ha]) fun _ => ite_check (by simp [deviceNamed_iff ha]) fun _ => rfl⟩
  | kdf =>
    simp only [exec, execKdf, reduceCtorEq, or_self, false_and, true_and, if_false, ← ite_or]
    exact ⟨_, ite_check (by simp [argumentFails_iff, inputRegions, outputRegion, or_assoc]) fun ha =>
      ite_check Iff.rfl fun _ => ite_check Iff.rfl fun _ =>
      ite_check (by simp [mappingFails_iff ha, or_assoc]) fun _ =>
      ite_check (by simp [deviceNamed_iff ha, or_assoc]) fun _ => rfl⟩

/-- A command ends with the code of the first check that fails (60_exceptions.md R213), and changes nothing else. -/
theorem exec_of_firstFailure {e : ErrorCode} (h : FirstFailure i s e) : exec i s = .next (s.complete e.code) := by
  obtain ⟨u, hu⟩ := exec_eq_checked i s
  rw [hu, checked_of_firstFailure h]

/-- A command whose checks pass and whose region names a device is refused (20_memory.md R60). -/
theorem exec_of_deviceNamed (h : Passes i s) (hdev : deviceNamed i s) : exec i s = .refused .deviceRegion := by
  obtain ⟨u, hu⟩ := exec_eq_checked i s
  rw [hu, checked_of_passes h, if_pos hdev]

end Instr

/-- Settles O46: every command makes its checks in their order, then refuses. -/
theorem deviceRegionsAreRefused : Obligations.DeviceRegionsAreRefused := by
  unfold Obligations.DeviceRegionsAreRefused
  exact fun i s hdev => ⟨fun h => Instr.exec_of_deviceNamed h hdev, fun e h => Instr.exec_of_firstFailure h⟩

end Sys2Proof.Machine
end

section
/-!
SUPPORT. The family of 30_encoding.md: a word decodes to the command whose fields it holds (`decode_eq_ok_iff`), and
`run MNEMONIC` is three steps, one lemma each.
-/
namespace Sys2Proof

/-! ### The fields of a command word -/

/-- OPCODE as a number (30_encoding.md R70). -/
theorem opcodeField_toNat (w : Word) : (opcodeField w).toNat = w.toNat % 256 := by
  simp [opcodeField, BitVec.extractLsb'_toNat]

/-- RSVD as a number (30_encoding.md R70). -/
theorem rsvdField_toNat (w : Word) : (rsvdField w).toNat = w.toNat / 256 := by
  have hw := w.isLt
  rw [rsvdField, BitVec.extractLsb'_toNat, Nat.shiftRight_eq_div_pow]
  omega

/-- A word is composed of its two fields (30_encoding.md R70). -/
@[simp] theorem wordOfRaw_rawOfWord (w : Word) : wordOfRaw (rawOfWord w) = w :=
  BitVec.extractLsb'_append_extractLsb' (w := 24) (len := 8)

/-- A composed word has the fields it was composed of (30_encoding.md R70). -/
@[simp] theorem rawOfWord_wordOfRaw (c : RawCommand) : rawOfWord (wordOfRaw c) = c :=
  congrArg₂ RawCommand.mk BitVec.extractLsb'_append_eq_right BitVec.extractLsb'_append_eq_left

/-! ### The opcode map -/

/-- An OPCODE selects the command that has it (30_encoding.md R72). -/
theorem commandOf_eq_some_iff {op : BitVec 8} {i : Instr} : commandOf op = some i ↔ op = i.opcode := by
  constructor
  · intro h
    unfold commandOf at h
    split_ifs at h <;> (cases h; assumption)
  · rintro rfl
    cases i <;> rfl

/-- The OPCODEs that select no command are those from 0x09 on (30_encoding.md R72, R73). -/
theorem commandOf_eq_none_iff {op : BitVec 8} : commandOf op = none ↔ 0x09 ≤ op.toNat := by
  constructor
  · intro h
    unfold commandOf at h
    split_ifs at h
    bv_omega
  · intro h
    have hne : ∀ c : BitVec 8, c.toNat < 0x09 → op ≠ c := by
      rintro c hc rfl
      omega
    simp [commandOf, hne]

/-! ### The decoder -/

/-- Every command is well-formed: its fields are legal. -/
theorem Instr.wellFormed_eq (i : Instr) : i.wellFormed = true := by cases i <;> rfl

/-- A word decodes to the command whose fields it holds (30_encoding.md R72). -/
theorem decode_eq_ok_iff {w : Word} {i : Instr} : decode w = .ok i ↔ rawOfWord w = i.raw := by
  have hraw : rawOfWord w = i.raw ↔ opcodeField w = i.opcode ∧ rsvdField w = 0 := by simp [rawOfWord, Instr.raw]
  rw [hraw, ← commandOf_eq_some_iff, decode]
  split_ifs with hr
  · cases commandOf (opcodeField w) <;> simp [hr]
  · exact iff_of_false nofun fun h => hr h.2

/-- The decoder gives a command back from its word (30_encoding.md R70, R72). -/
@[simp] theorem decode_encode (i : Instr) : decode (encode i) = .ok i := by
  simp [decode_eq_ok_iff, encode]

/-- The illegal words (30_encoding.md R73). -/
theorem decode_error_iff {w : Word} : (∃ e, decode w = .error e) ↔ 0x09 ≤ w.toNat % 256 ∨ w.toNat / 256 ≠ 0 := by
  have hrsvd : rsvdField w = 0 ↔ w.toNat / 256 = 0 := by rw [← BitVec.toNat_inj, rsvdField_toNat]; rfl
  rw [← opcodeField_toNat, ← commandOf_eq_none_iff, ne_eq, ← hrsvd, decode]
  split_ifs with hr
  · cases commandOf (opcodeField w) <;> simp [hr]
  · exact iff_of_true ⟨_, rfl⟩ (.inr hr)

/-- Settles O1: each word is a literal, which the decoder evaluates. -/
theorem commandWordsDecode : Obligations.CommandWordsDecode := by
  unfold Obligations.CommandWordsDecode
  decide

/-- Settles O2: fields and words determine each other, and a word decodes to the command whose fields it holds. -/
theorem decodeEncodeAgree : Obligations.DecodeEncodeAgree := by
  unfold Obligations.DecodeEncodeAgree
  refine ⟨fun i _ => decode_encode i, fun w i h => ⟨i.wellFormed_eq, ?_⟩⟩
  rw [encode, ← decode_eq_ok_iff.mp h, wordOfRaw_rawOfWord]

end Sys2Proof

namespace Sys2Proof.Machine

/-! ### Acceptance -/

/-- A word written to CMD while idle is accepted, legal or not (40_dispatch.md R90). -/
theorem State.hostWrite_cmd {s : State} (h : s.busy = false) (w : Word) : s.hostWrite .cmd w = s.accept w :=
  State.hostWrite_idle h .cmd w

/-- Settles O3: the decoder rejects exactly these words, and the engine's move on a rejected word is the completion with 0x04. -/
theorem illegalWordsComplete : Obligations.IllegalWordsComplete := by
  unfold Obligations.IllegalWordsComplete
  refine ⟨fun w => decode_error_iff, fun s w hb hw => ⟨State.hostWrite_cmd hb w, ?_⟩⟩
  obtain ⟨e, he⟩ := decode_error_iff.mpr hw
  exact State.engineMove_error (s := s.accept w) rfl he

/-! ### Completion -/

/-- No command faults (60_exceptions.md R224): it completes or is refused. -/
theorem exec_ne_fault (i : Instr) (s : State) (f : Fault) : exec i s ≠ .fault f := by
  obtain ⟨u, hu⟩ := Instr.exec_eq_checked i s
  rw [hu, Instr.checked]
  split_ifs <;> nofun

/-- A command that is not refused completes. -/
theorem exec_next_of_not_refused {i : Instr} {s : State} (h : ∀ q, exec i s ≠ .refused q) : ∃ t, exec i s = .next t := by
  cases ho : exec i s with
  | next t => exact ⟨t, rfl⟩
  | fault f => exact absurd ho (exec_ne_fault i s f)
  | refused q => exact absurd ho (h q)

/-- A command that completes clears BUSY and sets DONE (40_dispatch.md R93). -/
theorem exec_idle_done {i : Instr} {s t : State} (h : exec i s = .next t) : t.busy = false ∧ t.done = true := by
  obtain ⟨e, -, rfl⟩ | ⟨u, -, rfl⟩ := exec_cases h <;> exact ⟨rfl, rfl⟩

/-! ### `run MNEMONIC` in the default order -/

/-- In the default order taking a turn changes nothing. -/
theorem State.turnTaken_of_sched_nil {s : State} (h : s.sched = []) : s.turnTaken = s := by
  rw [State.turnTaken, h, List.tail_nil, ← h]

theorem regAt_cmd : regAt 0x000 = .cmd := regAt_offset .cmd

/-- The first step: `cmd MNEMONIC` is accepted (30_encoding.md R76, 40_dispatch.md R90). -/
theorem step_cmd {s : State} {i : Instr} {ops : List HostOp} (hs : s.sched = []) (hb : s.busy = false)
    (ho : s.hostOps = HostOp.cmd i :: ops) : step s = .next { s.accept (encode i) with hostOps := ops } := by
  rw [step_write (.inr ⟨hs, hb⟩) ho rfl, regAt_cmd, State.hostWrite_cmd (s := s.opTaken) hb]
  simp [State.opTaken, State.accept, hs, ho]

/-- The second step: the accepted command runs (40_dispatch.md R92). -/
theorem step_command {s : State} {i : Instr} (hs : s.sched = []) (hb : s.busy = true) (hd : decode s.cmd = .ok i) :
    step s = exec i s := by
  rw [step_engine (.inr ⟨hs, hb⟩), State.turnTaken_of_sched_nil hs, State.engineMove_ok hb hd]

/-- STATUS shows DONE while idle (10_state.md R27). -/
theorem statusDone_readReg {s : State} (hb : s.busy = false) : statusDone (s.readReg .status) = s.done := by
  obtain ⟨-, hdone, -⟩ :=
    packStatus_fields s.busy s.done s.werr s.phase.bit s.kvalid (BitVec.ofNat 6 s.buf.length) s.err
  rw [State.readReg_idle hb]
  exact hdone

/-- The third step: once a command has completed, `wait` reads STATUS and is over (30_encoding.md R76). -/
theorem step_wait {s : State} {ops : List HostOp} (hm : s.HostMoves) (hb : s.busy = false) (hd : s.done = true)
    (ho : s.hostOps = .wait :: ops) : step s = .next (s.opTaken.hostRead .status) := by
  have hread : statusDone (s.opTaken.readReg .status) = true := (statusDone_readReg (s := s.opTaken) hb).trans hd
  rw [step_host hm, State.hostMove_cons ho, State.hostOperation, if_pos hread]

/-- A run goes on from the state that its first step gives. -/
theorem run_succ {M : Host.Core} {s t : M.State} (h : M.step s = .next t) (k : Nat) : M.run (k + 1) s = M.run k t := by
  rw [Host.Core.run, h]

/-- `run MNEMONIC` in the default order, unless the command is refused: acceptance, completion, and a `wait` that reads
DONE = 1 (30_encoding.md R77). -/
theorem run_mnemonic {s : State} {i : Instr} {rest : List HostOp} (hs : s.sched = []) (hb : s.busy = false)
    (ho : s.hostOps = HostOp.run i ++ rest)
    (hq : ∀ q, exec i { s.accept (encode i) with hostOps := .wait :: rest } ≠ .refused q) :
    ∃ t : State, core.run 3 s = .next t ∧ t.busy = false ∧ t.done = true ∧ t.hostOps = rest ∧
      statusDone t.rdata = true := by
  obtain ⟨u, hu⟩ := exec_next_of_not_refused hq
  obtain ⟨hub, hud⟩ := exec_idle_done hu
  obtain ⟨⟨-, -, -, -, -, -, huo, hus, -⟩, -⟩ := commandFrame i _ u hu
  have hfirst := step_cmd hs hb ho
  have hsecond := step_command (s := { s.accept (encode i) with hostOps := .wait :: rest }) hs rfl (decode_encode i)
  have hthird := step_wait (.inr ⟨hus.trans hs, hub⟩) hub hud huo
  refine ⟨u.opTaken.hostRead .status, ?_, hub, hud, congrArg List.tail huo, (statusDone_readReg hub).trans hud⟩
  calc core.run 3 s
    _ = core.run 2 { s.accept (encode i) with hostOps := .wait :: rest } := run_succ (M := core) hfirst 2
    _ = core.run 1 u := run_succ (M := core) (hsecond.trans hu) 1
    _ = .next (u.opTaken.hostRead .status) := run_succ (M := core) hthird 0

/-! ### The end of a run -/

/-- A run that has ended only takes turns (70_reset_and_hazards.md R255). -/
theorem step_ended {s : State} (h : s.ended = true) : step s = .next s.turnTaken := by
  obtain ⟨ho, hb⟩ := s.ended_iff.mp h
  exact stepRunsHostOperation.2 s (s.moves_cases.imp (fun hm => ⟨hm, hb⟩) fun hm => ⟨hm, ho⟩)

/-- What is observed are the memory and the registers at the aligned offsets (10_state.md R25, 70_reset_and_hazards.md R255). -/
theorem State.observe_eq_iff_offsets (s t : State) : s.observe = t.observe ↔
    s.mem = t.mem ∧ ∀ off : Offset, off.toNat % 4 = 0 → s.idleRead (regAt off) = t.idleRead (regAt off) := by
  rw [State.observe_eq_iff]
  refine and_congr_right fun _ => ⟨fun h off _ => ?_, fun h r _ => ?_⟩
  · by_cases hr : regAt off = .reserved
    · rw [hr]
      rfl
    · exact h _ (mem_windowRegs hr)
  · have hoff := h r.offset r.offset_aligned
    rwa [regAt_offset] at hoff

/-- Settles O60: one lemma per step of the run, and a run that has ended changes nothing that is observed. -/
theorem runCompletesInThreeSteps : Obligations.RunCompletesInThreeSteps := by
  unfold Obligations.RunCompletesInThreeSteps
  refine ⟨fun s l i rest hclean hops hs hq => ?_, fun s h => ⟨s.turnTaken, step_ended h, h, rfl⟩,
    State.observe_eq_iff_offsets⟩
  obtain ⟨t, hrun, hb, hd, ho, hread⟩ := run_mnemonic hs hclean.idle (hclean.noWritePending.trans hops) hq
  exact ⟨t, hrun, hb, hd, ho, hread, fun hrest => ⟨3, hrun, t.ended_iff.mpr ⟨ho.trans hrest, hb⟩⟩⟩

end Sys2Proof.Machine
end

section
/-!
SUPPORT. The family of 40_dispatch.md: the code a command ends with (`exec_code`), and that a nonzero one stands for a completion
that does nothing else (`State.engineMove_errs`).
-/
namespace Sys2Proof.Machine

/-! ### How a command ends -/

/-- The code 0x04 is that of ILLEGAL_COMMAND alone (60_exceptions.md R210). -/
theorem ErrorCode.code_ne_illegal {e : ErrorCode} (h : e ≠ .illegalCommand) : e.code ≠ 0x04 := by
  cases e with
  | illegalCommand => exact absurd rfl h
  | _ => decide

/-- A command that decodes ends with a code of the table other than ILLEGAL_COMMAND, and then no byte is raced. -/
theorem exec_code {i : Instr} {s t : State} (h : exec i s = .next t) :
    t.err.toNat ≤ 7 ∧ t.err ≠ 0x04 ∧ t.races = [] := by
  obtain ⟨e, he, rfl⟩ | ⟨u, -, rfl⟩ := exec_cases h
  · exact ⟨e.code_le, ErrorCode.code_ne_illegal he, rfl⟩
  · exact ⟨Nat.zero_le _, by simp, rfl⟩

/-- A command that ends with a nonzero code has changed nothing but its status (40_dispatch.md R94). -/
theorem exec_errs {i : Instr} {s t : State} (h : exec i s = .next t) (herr : t.err ≠ 0) : t = s.complete t.err := by
  obtain ⟨e, -, rfl⟩ | ⟨u, -, rfl⟩ := exec_cases h
  · rfl
  · exact absurd rfl herr

/-- The engine's move on any latched word, legal or not, that ends with a nonzero code has changed nothing but its status
(40_dispatch.md R93, R94). -/
theorem State.engineMove_errs {s t : State} (hb : s.busy = true) (h : s.engineMove = .next t) (herr : t.err ≠ 0) :
    t = s.complete t.err := by
  cases hd : decode s.cmd with
  | ok i =>
    rw [State.engineMove_ok hb hd] at h
    exact exec_errs h herr
  | error e =>
    rw [State.engineMove_error hb hd] at h
    cases h
    rfl

/-- Settles O47: the engine only completes the accepted state, which is the old one but for what acceptance latched. -/
theorem errorChangesNothingElse : Obligations.ErrorChangesNothingElse := by
  unfold Obligations.ErrorChangesNothingElse
  intro s t w h herr
  exact State.engineMove_errs (s.accept_busy w) h herr

/-- Settles O48: both ways for a command to end are completions, and WERR is in the frame of every command. -/
theorem completionEndsTheCommand : Obligations.CompletionEndsTheCommand := by
  unfold Obligations.CompletionEndsTheCommand
  intro i s t h
  obtain ⟨hbusy, hdone⟩ := exec_idle_done h
  obtain ⟨hle, hne, hraces⟩ := exec_code h
  obtain ⟨⟨-, -, -, -, hwerr, -⟩, -⟩ := commandFrame i s t h
  exact ⟨hbusy, hdone, hle, hne, hraces, hwerr⟩

/-- Settles O49: the parameters and IE are in the frame of every command. -/
theorem commandsKeepParameters : Obligations.CommandsKeepParameters := by
  unfold Obligations.CommandsKeepParameters
  intro i s t h
  obtain ⟨⟨hparams, -, -, hie, -⟩, -⟩ := commandFrame i s t h
  exact ⟨hparams, hie⟩

/-! ### Steps that accept and that run a command -/

/-- Settles O4: the engine's turn is its move, and its move on a word that decodes is exec. -/
theorem stepRunsDecodedCommand : Obligations.StepRunsDecodedCommand := by
  unfold Obligations.StepRunsDecodedCommand
  intro s i hm hb hd _
  rw [step_engine hm, State.engineMove_ok (s := s.turnTaken) hb hd]

/-- Settles O10: an aligned write to CMD is an acceptance, which clears DONE and with it the interrupt output. -/
theorem cmdWriteIsAccepted : Obligations.CmdWriteIsAccepted := by
  unfold Obligations.CmdWriteIsAccepted
  intro s w rest hm hb ho
  refine ⟨s.opTaken.accept w, ?_, rfl, rfl, rfl⟩
  rw [step_write hm ho rfl, regAt_cmd, State.hostWrite_cmd (s := s.opTaken) hb]

/-- NOP is the completion with `OK` (40_dispatch.md R100). -/
theorem exec_nop (s : State) : exec .nop s = .next (s.complete 0) := rfl

/-- Settles O36: NOP is the completion with `OK`; on the reset state STATUS then packs DONE alone. -/
theorem nopCompletes : Obligations.NopCompletes := by
  unfold Obligations.NopCompletes
  refine ⟨exec_nop, (State.reset.accept 0).complete 0, exec_nop _, ?_⟩
  rw [State.readReg_idle rfl]
  decide

end Sys2Proof.Machine
end

section
/-!
SUPPORT. The family of 41_compression.md: the word functions, the message schedule, newest word first as the model builds it
(`extendSchedule_getD`), and the rounds over two lists of words in step (`zip_eq_range_map`).
-/
namespace Sys2Proof.Machine

/-! ### The word functions -/

/-- `ROTR^n` is the library's rotation (00_scope.md R11). -/
theorem rotr_eq_rotateRight {n : Nat} (h : n < 32) (x : Word) : rotr n x = x.rotateRight n :=
  (BitVec.rotateRight_eq_rotateRightAux_of_lt h).symm

/-- `Ch` selects bit by bit (41_compression.md R111). -/
theorem ch_getLsbD (x y z : Word) (n : Nat) :
    (ch x y z).getLsbD n = if x.getLsbD n then y.getLsbD n else z.getLsbD n := by
  simp only [ch, BitVec.getLsbD_xor, BitVec.getLsbD_and, BitVec.getLsbD_not]
  by_cases hn : n < 32
  · cases x.getLsbD n <;> simp [hn]
  · simp [BitVec.getLsbD_of_ge _ _ (not_lt.mp hn)]

/-- `Maj` is the majority bit by bit (41_compression.md R112). -/
theorem maj_getLsbD (x y z : Word) (n : Nat) : (maj x y z).getLsbD n =
    decide (2 ≤ (x.getLsbD n).toNat + (y.getLsbD n).toNat + (z.getLsbD n).toNat) := by
  simp only [maj, BitVec.getLsbD_xor, BitVec.getLsbD_and]
  generalize x.getLsbD n = a, y.getLsbD n = b, z.getLsbD n = c
  revert a b c
  decide

/-- Settles O22: Ch and Maj bit by bit, the mixing functions through the library's rotation, and the examples by evaluation. -/
theorem wordFunctions : Obligations.WordFunctions := by
  unfold Obligations.WordFunctions
  refine ⟨ch_getLsbD, maj_getLsbD, fun x y z => ⟨rfl, rfl⟩, fun x => ?_, by decide⟩
  simp only [bsig0, bsig1, ssig0, ssig1, shr, rotr_eq_rotateRight, Nat.reduceLT, and_self]

/-! ### The message schedule -/

/-- A byte appended to a bit vector, as numbers. -/
theorem toNat_append_byte {w : Nat} (x : BitVec w) (b : Byte) : (x ++ b).toNat = x.toNat * 2 ^ 8 + b.toNat := by
  rw [BitVec.toNat_append, ← Nat.shiftLeft_add_eq_or_of_lt b.isLt, Nat.shiftLeft_eq]

/-- Four bytes, most significant first, as a number (41_compression.md R117). -/
theorem bew_toNat (b0 b1 b2 b3 : Byte) :
    (bew b0 b1 b2 b3).toNat = b0.toNat * 2 ^ 24 + b1.toNat * 2 ^ 16 + b2.toNat * 2 ^ 8 + b3.toNat := by
  simp only [bew, toNat_append_byte]
  omega

/-- The newest word comes last out of those before it. -/
theorem extendSchedule_succ : ∀ (n : Nat) (ws : List Word),
    extendSchedule (n + 1) ws = nextWord (extendSchedule n ws) :: extendSchedule n ws
  | 0, _ => rfl
  | n + 1, ws => extendSchedule_succ n (nextWord ws :: ws)

@[simp] theorem extendSchedule_length (n : Nat) (ws : List Word) : (extendSchedule n ws).length = n + ws.length := by
  induction n with
  | zero => exact (Nat.zero_add _).symm
  | succ n ih => rw [extendSchedule_succ, List.length_cons, ih, Nat.add_right_comm]

/-- The words that were there before stand behind the `n` new ones. -/
theorem extendSchedule_getD_old (n i : Nat) (ws : List Word) : (extendSchedule n ws).getD (n + i) 0 = ws.getD i 0 := by
  induction n with
  | zero => rw [Nat.zero_add, extendSchedule]
  | succ n ih => rw [extendSchedule_succ, Nat.add_right_comm, List.getD_cons_succ, ih]

/-- Each new word comes out of those before it (41_compression.md R118). -/
theorem extendSchedule_getD_new {n i : Nat} (h : i < n) (ws : List Word) :
    (extendSchedule n ws).getD i 0 = nextWord ((extendSchedule n ws).drop (i + 1)) := by
  induction n generalizing i with
  | zero => exact absurd h (Nat.not_lt_zero i)
  | succ n ih =>
    rw [extendSchedule_succ]
    cases i with
    | zero => rfl
    | succ i => exact ih (Nat.lt_of_succ_lt_succ h)

/-- The next word after the first `k` of a list, newest first, are dropped. -/
theorem nextWord_drop (ws : List Word) (k : Nat) : nextWord (ws.drop k) =
    ssig1 (ws.getD (k + 1) 0) + ws.getD (k + 6) 0 + ssig0 (ws.getD (k + 14) 0) + ws.getD (k + 15) 0 := by
  simp [nextWord, List.getD_eq_getElem?_getD]

section

variable {b : List Byte} (hb : b.length = 64)

include hb

/-- With the words of the block there are 64, newest first. -/
theorem newest_length : (extendSchedule 48 (blockWords b).reverse).length = 64 := by
  rw [extendSchedule_length, List.length_reverse, blockWords_length 16 b hb]

theorem schedule_length : (schedule b).length = 64 := by
  rw [schedule, List.length_reverse, newest_length hb]

/-- Word `t` of the schedule stands at place 63 - t of the words built newest first. -/
theorem schedule_getD {t : Nat} (ht : t < 64) :
    (schedule b).getD t 0 = (extendSchedule 48 (blockWords b).reverse).getD (63 - t) 0 := by
  have hl := newest_length hb
  rw [schedule, List.getD_reverse t (by omega), hl]

/-- The first 16 words of the schedule are those of the block (41_compression.md R117). -/
theorem schedule_getD_block {t : Nat} (ht : t < 16) : (schedule b).getD t 0 = (blockWords b).getD t 0 := by
  have hl := blockWords_length 16 b hb
  have hplace : 63 - t = 48 + (15 - t) := by omega
  rw [schedule_getD hb (by omega), hplace, extendSchedule_getD_old, List.getD_reverse _ (by omega), hl]
  congr 1
  omega

/-- The later words of the schedule satisfy the recurrence (41_compression.md R118). -/
theorem schedule_getD_recurrence {t : Nat} (hlo : 16 ≤ t) (hhi : t < 64) : (schedule b).getD t 0 =
    ssig1 ((schedule b).getD (t - 2) 0) + (schedule b).getD (t - 7) 0 +
    ssig0 ((schedule b).getD (t - 15) 0) + (schedule b).getD (t - 16) 0 := by
  have hback (k : Nat) (hk : k < 16) : (schedule b).getD (t - (k + 1)) 0 =
      (extendSchedule 48 (blockWords b).reverse).getD (63 - t + 1 + k) 0 := by
    have hplace : 63 - (t - (k + 1)) = 63 - t + 1 + k := by omega
    rw [schedule_getD hb (by omega), hplace]
  rw [schedule_getD hb hhi, extendSchedule_getD_new (by omega), nextWord_drop,
    hback 1 (by omega), hback 6 (by omega), hback 14 (by omega), hback 15 (by omega)]

end

/-- Settles O23: the schedule is the words built newest first, reversed; its first 16 are the block's, the others are new. -/
theorem scheduleRecurrence : Obligations.ScheduleRecurrence := by
  unfold Obligations.ScheduleRecurrence
  refine fun b hb => ⟨schedule_length hb, fun t ht => ?_, fun t => schedule_getD_recurrence hb⟩
  rw [schedule_getD_block hb ht, blockWords_getD t b (by omega), bew_toNat]

/-! ### The rounds -/

@[simp] theorem roundConstants_length : roundConstants.length = 64 := rfl

/-- Two lists of `n` words in step are their words `t` for `t` from 0 to n - 1. -/
theorem zip_eq_range_map {n : Nat} {ks ws : List Word} (hk : ks.length = n) (hw : ws.length = n) :
    ks.zip ws = (List.range n).map fun t => (ks.getD t 0, ws.getD t 0) := by
  apply List.ext_getElem
  · simp [hk, hw]
  · intro t _ ht
    have ht : t < n := by simpa using ht
    simp [hk, hw, ht]

/-- The rounds run in increasing order with word `t` of each list (41_compression.md R120). -/
theorem runRounds_zip (r : WorkRegs) {n : Nat} {ks ws : List Word} (hk : ks.length = n) (hw : ws.length = n) :
    runRounds r (ks.zip ws) = (List.range n).foldl (fun r t => hashRound r (ks.getD t 0) (ws.getD t 0)) r := by
  rw [runRounds, zip_eq_range_map hk hw, List.foldl_map]

/-- Settles O24: both lists of words have length 64, so the rounds over their pairs are rounds 0 to 63. -/
theorem compressIsSixtyFourRounds : Obligations.CompressIsSixtyFourRounds := by
  unfold Obligations.CompressIsSixtyFourRounds
  refine ⟨rfl, fun _ _ _ => rfl, fun h b hb => ⟨_, rfl, ?_⟩⟩
  rw [compressBlock, runRounds_zip _ roundConstants_length (schedule_length hb), loadRegs, addRegs]

/-! ### COMPRESS -/

/-- COMPRESS on a source region that passes its checks (41_compression.md R125). -/
theorem exec_compress {s : State} (hlen : s.snap.srcLen = 64) (hsrc : s.Usable s.snap.src) :
    exec .compress s = .next (State.complete { s with hstate := compressBlock s.hstate s.srcBytes } 0) := by
  obtain ⟨hwf, hmap, hadm⟩ := hsrc.checks
  simp [exec, execCompress, hlen, hwf, hmap, hadm, State.readRegion_src]

/-- Settles O40: the checks pass in either phase, and the completed state is written out. -/
theorem compressCompletes : Obligations.CompressCompletes := by
  unfold Obligations.CompressCompletes
  intro s hlen hsrc
  rw [exec_compress (BitVec.eq_of_toNat_eq hlen) hsrc]
  rfl

end Sys2Proof.Machine
end

section
/-!
SUPPORT. The family of 42_streaming.md: what Absorb and Finish are on whole blocks (`absorb_eq`, `finish_eq_padded`), and INIT,
UPDATE, FINAL, HASH on operands that pass their checks. A run of UPDATEs is one Absorb of all their bytes
(`execUpdates_absorbed`).
-/
namespace Sys2Proof.Machine

/-! ### Absorb -/

/-- Settles O25: the bytes are absorbed one after another, and the counts of two pieces add up. -/
theorem absorbIsChunkingInvariant : Obligations.AbsorbIsChunkingInvariant := by
  unfold Obligations.AbsorbIsChunkingInvariant
  intro c a b
  simp [absorb, absorbBytes_append, Nat.mul_add, BitVec.ofNat_add, BitVec.add_assoc]

/-- Blocks in front of a byte sequence are its first ones. -/
theorem firstBlocks_append (k : Nat) (b : List Byte) : ∀ (n : Nat) (a : List Byte), a.length = 64 * n →
    firstBlocks (n + k) (a ++ b) = firstBlocks n a ++ firstBlocks k b
  | 0, a, ha => by
    obtain rfl : a = [] := List.eq_nil_of_length_eq_zero ha
    simp
  | n + 1, a, ha => by
    rw [Nat.add_right_comm, firstBlocks_cons, firstBlocks_cons,
      List.take_append_of_le_length (by omega), List.drop_append_of_le_length (by omega),
      firstBlocks_append k b n (a.drop 64) (by rw [List.length_drop]; omega), List.cons_append]

/-- All the complete blocks of a byte sequence that begins with whole blocks. -/
theorem firstBlocks_append_all {n : Nat} {a : List Byte} (ha : a.length = 64 * n) (b : List Byte) :
    firstBlocks ((a ++ b).length / 64) (a ++ b) = firstBlocks n a ++ firstBlocks (b.length / 64) b := by
  rw [List.length_append, ha, Nat.mul_add_div (by decide), firstBlocks_append _ b n a ha]

/-- A sequence of 64 bytes is its one block. -/
theorem firstBlocks_one {b : List Byte} (hb : b.length = 64) : firstBlocks 1 b = [b] := by
  rw [firstBlocks_cons, firstBlocks_zero, List.take_of_length_le hb.le]

/-- From an empty buffer the complete blocks are compressed and the rest is kept (42_streaming.md R143). -/
theorem absorbBytes_blocks : ∀ (n : Nat) (h : HashState) (m : List Byte), m.length / 64 = n →
    absorbBytes (h, []) m = (compressBlocks h (firstBlocks n m), m.drop (64 * n))
  | 0, h, m, hm => by
    rw [absorbBytes_short h m [] (by rw [List.length_nil]; omega)]
    rfl
  | n + 1, h, m, hm => by
    have hlen : (m.take 64).length = 64 := by
      rw [List.length_take]
      omega
    have hne : m.take 64 ≠ [] := List.ne_nil_of_length_pos (by omega)
    calc absorbBytes (h, []) m
        = absorbBytes (absorbBytes (h, []) (m.take 64)) (m.drop 64) := by rw [← absorbBytes_append, List.take_append_drop]
      _ = absorbBytes (compressBlock h (m.take 64), []) (m.drop 64) := by
          rw [absorbBytes_fill h _ [] hne (by simpa using hlen), List.nil_append]
      _ = _ := by
          rw [absorbBytes_blocks n _ (m.drop 64) (by rw [List.length_drop]; omega), firstBlocks_cons, compressBlocks_cons,
            List.drop_drop, Nat.mul_succ, Nat.add_comm]

/-- A buffer that is not full might as well be absorbed first. -/
theorem absorbBytes_buffer (h : HashState) {buf : List Byte} (hbuf : buf.length ≤ 63) (d : List Byte) :
    absorbBytes (h, buf) d = absorbBytes (h, []) (buf ++ d) := by
  rw [absorbBytes_append, absorbBytes_short h buf [] (by simpa using hbuf), List.nil_append]

/-- Absorb on whole blocks: those of `buf || D` are compressed, the rest is kept (42_streaming.md R143). -/
theorem absorb_eq {c : Stream} (hbuf : c.buf.length ≤ 63) (d : List Byte) {n : Nat} (hn : (c.buf.length + d.length) / 64 = n) :
    absorb c d = ⟨compressBlocks c.h (firstBlocks n (c.buf ++ d)), (c.buf ++ d).drop (64 * n),
      c.cnt + BitVec.ofNat 64 (8 * d.length)⟩ := by
  rw [absorb, absorbBytes_buffer c.h hbuf, absorbBytes_blocks n _ _ (by rw [List.length_append, hn])]

/-- Absorb counts 8 bits a byte, within the limit of 42_streaming.md R146 without wrapping. -/
theorem absorb_cnt_toNat {c : Stream} {d : List Byte} (h : c.cnt.toNat / 8 + d.length ≤ lmax) :
    (absorb c d).cnt.toNat = c.cnt.toNat + 8 * d.length := by
  unfold lmax at h
  rw [absorb, BitVec.toNat_add, BitVec.toNat_ofNat]
  omega

/-- Settles O26: the complete blocks of `buf || D` end where its last (len(buf) + len(D)) mod 64 bytes begin. -/
theorem absorbCompressesFullBlocks : Obligations.AbsorbCompressesFullBlocks := by
  unfold Obligations.AbsorbCompressesFullBlocks
  refine ⟨fun c d hbuf => ?_, fun c => by simp [absorb]⟩
  have hsplit : c.buf.length + d.length - (c.buf.length + d.length) % 64 = 64 * ((c.buf.length + d.length) / 64) := by omega
  rw [hsplit]
  exact ⟨by rw [absorb_eq hbuf d rfl], absorbBytes_buf_length d (c.h, c.buf) hbuf, by rw [absorb_eq hbuf d rfl]⟩

/-! ### Finish and the padded message -/

/-- Settles O27: the 0x80 byte leaves room for the length up to 55 buffered bytes; the zeros after it fill the block. -/
theorem finishPadsOneOrTwoBlocks : Obligations.FinishPadsOneOrTwoBlocks := by
  unfold Obligations.FinishPadsOneOrTwoBlocks
  refine fun c => ⟨fun hshort => ⟨?_, ?_⟩, fun ⟨hlo, hhi⟩ => ⟨?_, ?_, rfl⟩⟩
  · have hroom : ¬ (c.buf ++ [0x80]).length > 56 := by simp; omega
    have hzeros : 56 - (c.buf ++ [0x80]).length = 55 - c.buf.length := by simp
    rw [finish, if_neg hroom, lengthBlock, hzeros]
  · simp
    omega
  · have hfull : (c.buf ++ [0x80]).length > 56 := by simpa using hlo
    have hzeros : 64 - (c.buf ++ [0x80]).length = 63 - c.buf.length := by simp
    rw [finish, if_pos hfull, hzeros, lengthBlock, List.length_nil, List.nil_append]
  · simp
    omega

/-- Padding after whole blocks is that of the rest: the number of zeros depends on the length mod 64 (42_streaming.md R147). -/
theorem padded_append {n : Nat} {a : List Byte} (ha : a.length = 64 * n) (b : List Byte) (cnt : DWord) :
    padded (a ++ b) cnt = a ++ padded b cnt := by
  have hzeros : padZeros (a ++ b).length = padZeros b.length := by
    rw [List.length_append, ha, padZeros, padZeros, Nat.mul_add_mod]
  simp only [padded, hzeros, List.append_assoc]

/-- Finish compresses the padded buffer block by block (42_streaming.md R144, R145). -/
theorem finish_eq_padded {c : Stream} (hbuf : c.buf.length ≤ 63) :
    finish c = compressBlocks c.h (firstBlocks ((padded c.buf c.cnt).length / 64) (padded c.buf c.cnt)) := by
  obtain ⟨hone, htwo⟩ := finishPadsOneOrTwoBlocks c
  by_cases hshort : c.buf.length ≤ 55
  · obtain ⟨hfin, hlen⟩ := hone hshort
    have hpad : padZeros c.buf.length = 55 - c.buf.length := by unfold padZeros; omega
    rw [hfin, padded, hpad, hlen, firstBlocks_one hlen, compressBlocks_cons, compressBlocks_nil]
  · obtain ⟨hfin, hlen, hlast⟩ := htwo ⟨by omega, hbuf⟩
    have hpad : padZeros c.buf.length = 63 - c.buf.length + 56 := by unfold padZeros; omega
    have hp : padded c.buf c.cnt = (c.buf ++ [0x80] ++ zeros (63 - c.buf.length)) ++ (zeros 56 ++ be64 c.cnt) := by
      simp only [padded, hpad, ← zeros_append, List.append_assoc]
    rw [hfin, hp, firstBlocks_append_all (n := 1) hlen, hlast, firstBlocks_one hlen, firstBlocks_one hlast]
    rfl

/-- Absorbing whole blocks and less than a block after them from the initial context (42_streaming.md R143, R149). -/
theorem absorb_initial_append {n : Nat} {a b : List Byte} (ha : a.length = 64 * n) (hb : b.length ≤ 63) :
    absorb Stream.initial (a ++ b) = ⟨compressBlocks iv (firstBlocks n a), b, BitVec.ofNat 64 (8 * (a ++ b).length)⟩ := by
  have hblocks : firstBlocks n (a ++ b) = firstBlocks n a := by simpa using firstBlocks_append 0 b n a ha
  have hn : (a ++ b).length / 64 = n := by rw [List.length_append]; omega
  rw [absorb_eq (n := n) (Nat.zero_le _) _ (by simpa [Stream.initial] using hn)]
  simp [Stream.initial, hblocks, ← ha]

/-- A digest is that of the padded message, compressed block by block from IV (42_streaming.md R147, R149). -/
theorem sha256_eq_padded (m : List Byte) {p : List Byte} (hp : p = padded m (BitVec.ofNat 64 (8 * m.length))) :
    sha256 m = digest (compressBlocks iv (firstBlocks (p.length / 64) p)) := by
  obtain ⟨n, a, b, rfl, ha, hb⟩ : ∃ (n : Nat) (a b : List Byte), m = a ++ b ∧ a.length = 64 * n ∧ b.length ≤ 63 :=
    ⟨m.length / 64, m.take (64 * (m.length / 64)), m.drop (64 * (m.length / 64)), (List.take_append_drop ..).symm,
      by rw [List.length_take]; omega, by rw [List.length_drop]; omega⟩
  rw [padded_append ha] at hp
  rw [sha256, absorb_initial_append ha hb, finish_eq_padded hb, ← compressBlocks_append, hp, firstBlocks_append_all ha]

/-- Settles O28: the least number of zeros is that of `padded`. -/
theorem sha256OfPaddedMessage : Obligations.Sha256OfPaddedMessage := by
  unfold Obligations.Sha256OfPaddedMessage
  intro m k hk hleast
  have hpad : padZeros m.length = k := by
    have hnot := hleast (padZeros m.length)
    unfold padZeros at hnot ⊢
    omega
  refine ⟨_, rfl, ?_, sha256_eq_padded m (by rw [padded, hpad])⟩
  simp
  omega

/-! ### The digest -/

/-- Byte `j` of `BE32(w)` is bits 31-8j : 24-8j of `w` (00_scope.md R12). -/
theorem be32_getD (w : Word) {j : Nat} (hj : j < 4) : ((be32 w).getD j 0).toNat = w.toNat / 2 ^ (24 - 8 * j) % 2 ^ 8 := by
  interval_cases j <;> simp [be32, BitVec.extractLsb'_toNat, Nat.shiftRight_eq_div_pow]

/-- Bytes 4i to 4i + 3 of words serialised big-endian are those of word `i`. -/
theorem flatMap_be32_getD {j : Nat} (hj : j < 4) : ∀ (i : Nat) (ws : List Word), i < ws.length →
    (ws.flatMap be32).getD (4 * i + j) 0 = (be32 (ws.getD i 0)).getD j 0
  | 0, w :: ws, _ => by simp [List.getElem?_append, hj]
  | i + 1, w :: ws, hi => by
    have hidx : 4 * (i + 1) + j - 4 = 4 * i + j := by omega
    rw [List.flatMap_cons, List.getD_append_right _ _ _ _ (by simp; omega), be32_length, hidx,
      flatMap_be32_getD hj i ws (by simpa using hi), List.getD_cons_succ]

/-- The digest serialises the words in order (42_streaming.md R148). -/
theorem digest_eq_flatMap (h : HashState) : digest h = h.words.flatMap be32 := rfl

theorem HashState.words_getD (h : HashState) (i : Fin 8) : h.words.getD i.val 0 = h.get i := by
  fin_cases i <;> rfl

/-- Settles O29: word `i` holds bytes 4i to 4i + 3. -/
theorem digestBytes : Obligations.DigestBytes := by
  unfold Obligations.DigestBytes
  refine fun h => ⟨digest_length h, fun i j hj => ?_⟩
  rw [digest_eq_flatMap, flatMap_be32_getD hj i.val h.words i.isLt, h.words_getD, be32_getD _ hj]

/-! ### The four commands -/

/-- INIT always succeeds (42_streaming.md R150). -/
theorem exec_init (s : State) :
    exec .init s = .next (State.complete { s.setStream Stream.initial with phase := .accumulating } 0) := rfl

/-- Settles O37: INIT has no check, and IV is written out. -/
theorem initCompletes : Obligations.InitCompletes := by
  unfold Obligations.InitCompletes
  exact exec_init

/-- UPDATE on a source region that passes its checks (42_streaming.md R151). -/
theorem exec_update {s : State} (hphase : s.phase = .accumulating) (hsrc : s.Usable s.snap.src)
    (hlen : s.cnt.toNat / 8 + s.snap.srcLen.toNat ≤ lmax) :
    exec .update s = .next ((s.setStream (absorb s.stream s.srcBytes)).complete 0) := by
  obtain ⟨hwf, hmap, hadm⟩ := hsrc.checks
  simp [exec, execUpdate, hphase, hwf, Nat.not_lt.mpr hlen, hmap, hadm, State.readRegion_src]

/-- Settles O38: the source bytes are absorbed, whole blocks at a time. -/
theorem updateCompletes : Obligations.UpdateCompletes := by
  unfold Obligations.UpdateCompletes
  intro s hphase hbuf _ hsrc hlen
  have hcnt := absorb_cnt_toNat (c := s.stream) (d := s.srcBytes) (by rwa [State.srcBytes_length])
  have habsorb := absorb_eq (c := s.stream) hbuf s.srcBytes rfl
  rw [State.srcBytes_length] at hcnt habsorb
  rw [habsorb] at hcnt
  refine ⟨_, _, rfl, hcnt, ?_⟩
  rw [exec_update hphase hsrc hlen, habsorb]
  rfl

/-- FINAL on an output region that passes its checks (42_streaming.md R152). -/
theorem exec_final {s : State} (hphase : s.phase = .accumulating) (hdst : s.Usable s.snap.dst32) :
    exec .final s = .next (State.complete { s with
      hstate := finish s.stream, buf := [], phase := .finalized,
      mem := s.memWrite s.snap.dstAddr (digest (finish s.stream)) } 0) := by
  obtain ⟨hwf, hmap, hadm⟩ := hdst.checks
  simp [exec, execFinal, hphase, hwf, hmap, hadm]

/-- A digest written to a usable output region is stored there (20_memory.md R55). -/
theorem State.Usable.stored_dst32 {s : State} (hdst : s.Usable s.snap.dst32) (hw : s.mem.wf = true) {v : List Byte}
    (hv : v.length = 32) : s.Stored s.snap.dst32 v (s.memWrite s.snap.dstAddr v) :=
  (State.memWrite_stored hw hdst.1 hv).2

/-- Settles O39: the padded buffer is compressed, and the digest stored. -/
theorem finalCompletes : Obligations.FinalCompletes := by
  unfold Obligations.FinalCompletes
  intro s hphase hbuf hdst hw
  exact ⟨_, _, finish_eq_padded (c := s.stream) hbuf, exec_final hphase hdst, hdst.stored_dst32 hw (digest_length _)⟩

/-- HASH on regions that pass its checks (42_streaming.md R153). -/
theorem exec_hash {s : State} (hsrc : s.Usable s.snap.src) (hdst : s.Usable s.snap.dst32)
    (hover : s.snap.dst32.overlaps s.snap.src = false) (hlen : s.snap.srcLen.toNat ≤ lmax) :
    exec .hash s = .next (State.complete { s with mem := s.memWrite s.snap.dstAddr (sha256 s.srcBytes) } 0) := by
  obtain ⟨hwf, hmap, hadm⟩ := hsrc.checks
  obtain ⟨hwf', hmap', hadm'⟩ := hdst.checks
  simp [exec, execHash, hwf, hwf', hover, Nat.not_lt.mpr hlen, hmap, hmap', hadm, hadm', State.readRegion_src]

/-- Settles O41: the checks pass, and the digest of the source bytes is stored. -/
theorem hashCompletes : Obligations.HashCompletes := by
  unfold Obligations.HashCompletes
  intro s hsrc hdst hover hlen hw
  exact ⟨_, exec_hash hsrc hdst hover hlen, hdst.stored_dst32 hw (sha256_length _)⟩

/-! ### A message in pieces -/

/-- `s.Absorbed d t`: `t` is `s` after `d` was absorbed while accumulating, with no byte raced; the memory and the map are
those of `s`. -/
structure State.Absorbed (s : State) (d : List Byte) (t : State) : Prop where
  phase : t.phase = .accumulating
  stream : t.stream = absorb s.stream d
  mem : t.mem = s.mem
  map : t.map = s.map
  races : t.races = []

/-- Absorbing one piece and then another is absorbing both (42_streaming.md R142). -/
theorem State.Absorbed.trans {s t u : State} {a b : List Byte} (h : s.Absorbed a t) (h' : t.Absorbed b u) :
    s.Absorbed (a ++ b) u where
  phase := h'.phase
  stream := by rw [h'.stream, h.stream, absorbIsChunkingInvariant]
  mem := h'.mem.trans h.mem
  map := h'.map.trans h.map
  races := h'.races

/-- What was absorbed within the length limit is counted, 8 bits a byte. -/
theorem State.Absorbed.cnt_toNat {s t : State} {d : List Byte} (h : s.Absorbed d t)
    (hlen : s.cnt.toNat / 8 + d.length ≤ lmax) : t.cnt.toNat = s.cnt.toNat + 8 * d.length := by
  have hcnt := absorb_cnt_toNat (c := s.stream) hlen
  rwa [← h.stream] at hcnt

/-- Which regions are usable depends on the map alone. -/
theorem State.Usable.of_map_eq {s t : State} {r : Region} (h : s.Usable r) (hmap : t.map = s.map) : t.Usable r := by
  simpa only [State.Usable, State.mappedAddr, State.deviceAddr, hmap] using h

/-- Without a race the source bytes are those of the memory. -/
theorem State.srcBytes_of_races_nil {s : State} (h : s.races = []) :
    s.srcBytes = byteRange s.mem.read s.snap.srcAddr s.snap.srcLen.toNat := by
  rw [State.srcBytes, funext (State.inputByte_of_races_nil h 0)]

/-- An UPDATE with the snapshot `p` absorbs the bytes that `p` names (42_streaming.md R151). -/
theorem exec_update_absorbed {s : State} {p : Params} (hphase : s.phase = .accumulating) (hraces : s.races = [])
    (hsrc : s.Usable p.src) (hlen : s.cnt.toNat / 8 + p.srcLen.toNat ≤ lmax) :
    ∃ t, exec .update { s with snap := p } = .next t ∧ s.Absorbed (byteRange s.mem.read p.srcAddr p.srcLen.toNat) t := by
  refine ⟨_, exec_update (s := { s with snap := p }) hphase hsrc hlen, ?_⟩
  rw [State.srcBytes_of_races_nil (s := { s with snap := p }) hraces]
  exact ⟨hphase, rfl, rfl, rfl, rfl⟩

/-- UPDATEs one after another absorb all their bytes in order (42_streaming.md R142, R151). -/
theorem execUpdates_absorbed : ∀ (ps : List Params) (s : State), s.phase = .accumulating → s.races = [] →
    (∀ p ∈ ps, s.Usable p.src) → s.cnt.toNat / 8 + (ps.map fun p => p.srcLen.toNat).sum ≤ lmax →
    ∃ u, execUpdates ps s = .next u ∧ s.Absorbed (ps.flatMap fun p => byteRange s.mem.read p.srcAddr p.srcLen.toNat) u
  | [], s, hphase, hraces, _, _ => ⟨s, rfl, hphase, by simp [absorb, State.stream], rfl, rfl, hraces⟩
  | p :: ps, s, hphase, hraces, hsrc, hlen => by
    obtain ⟨hp, hps⟩ := List.forall_mem_cons.mp hsrc
    rw [List.map_cons, List.sum_cons] at hlen
    obtain ⟨t, ht, habs⟩ := exec_update_absorbed hphase hraces hp (by omega)
    have hcnt := habs.cnt_toNat (by rw [byteRange_length]; omega)
    rw [byteRange_length] at hcnt
    obtain ⟨u, hu, habs'⟩ := execUpdates_absorbed ps t habs.phase habs.races (fun q hq => (hps q hq).of_map_eq habs.map)
      (by omega)
    rw [habs.mem] at habs'
    exact ⟨u, by simp only [execUpdates, ht, hu], habs.trans habs'⟩

/-- Settles O30: INIT gives the initial context, the UPDATEs absorb the whole message, and FINAL stores its digest. -/
theorem streamingGivesSha256 : Obligations.StreamingGivesSha256 := by
  unfold Obligations.StreamingGivesSha256
  intro s ps q hraces hw hsrc hdst hlen
  obtain ⟨u, hu, habs⟩ := execUpdates_absorbed ps
    (State.complete { s.setStream Stream.initial with phase := .accumulating } 0) rfl rfl hsrc
    (by simpa [Stream.initial, lmax] using hlen)
  have hdst' : State.Usable { u with snap := q } q.dst32 := hdst.of_map_eq habs.map
  have hw' : u.mem.wf = true := by rwa [habs.mem]
  obtain ⟨hlength, hbytes, -⟩ := State.Usable.stored_dst32 hdst' hw' (digest_length (finish u.stream))
  refine ⟨_, u, _, exec_init s, hu, exec_final (s := { u with snap := q }) habs.phase hdst', rfl, rfl, fun i hi => ?_⟩
  refine (hbytes i hi (by simp [habs.races])).trans ?_
  rw [habs.stream]
  rfl

end Sys2Proof.Machine
end

section
/-!
SUPPORT. The family of 43_hmac.md: the normalised key in its two cases (`normKey_of_long`, `normKey_of_short`), which is all
that the MAC sees of a key, and HMAC_KEY and HMAC_MAC on operands that pass their checks.
-/
namespace Sys2Proof.Machine

/-! ### The normalised key -/

/-- A key longer than a block is hashed (43_hmac.md R171). -/
theorem normKey_of_long {k : List Byte} (h : k.length > 64) : normKey k = sha256 k ++ zeros 32 := if_pos h

/-- A key of at most one block is zero-extended (43_hmac.md R171). -/
theorem normKey_of_short {k : List Byte} (h : k.length ≤ 64) : normKey k = k ++ zeros (64 - k.length) :=
  if_neg (Nat.not_lt.mpr h)

/-- Zeros after a short key are among those that normalisation appends (43_hmac.md R178). -/
theorem normKey_append_zeros {k : List Byte} {j : Nat} (h : k.length + j ≤ 64) : normKey (k ++ zeros j) = normKey k := by
  have hfill : j + (64 - (k.length + j)) = 64 - k.length := by omega
  rw [normKey_of_short (by simpa using h), normKey_of_short (by omega), List.length_append, zeros_length, List.append_assoc,
    zeros_append, hfill]

/-- A hash as a key is zero-extended (43_hmac.md R177). -/
theorem normKey_sha256 (k : List Byte) : normKey (sha256 k) = sha256 k ++ zeros 32 := normKey_of_short (by simp)

/-- The MAC depends on the normalised key alone (43_hmac.md R173). -/
theorem hmac_eq_of_normKey_eq {k k' : List Byte} (h : normKey k = normKey k') (m : List Byte) : hmac k m = hmac k' m := by
  rw [hmac, hmac, h]

/-- Settles O31: the key, its hash and the hash zero-extended normalise alike. -/
theorem longKeyEqualsItsHash : Obligations.LongKeyEqualsItsHash := by
  unfold Obligations.LongKeyEqualsItsHash
  intro k m hk
  have hhash : normKey k = normKey (sha256 k) := by rw [normKey_of_long hk, normKey_sha256]
  have hextended : normKey (sha256 k ++ zeros 32) = normKey (sha256 k) := normKey_append_zeros (by simp)
  exact ⟨hmac_eq_of_normKey_eq hhash m, hmac_eq_of_normKey_eq (hhash.trans hextended.symm) m, normKey_of_long hk,
    normKey_sha256 k⟩

/-- Settles O32: the zeros are those that normalisation appends. -/
theorem trailingZerosOfKey : Obligations.TrailingZerosOfKey := by
  unfold Obligations.TrailingZerosOfKey
  intro k m j h
  exact ⟨normKey_append_zeros h, hmac_eq_of_normKey_eq (normKey_append_zeros h) m⟩

/-! ### The two commands -/

/-- HMAC_KEY on a source region that passes its checks (43_hmac.md R180). -/
theorem exec_hmacKey {s : State} (hsrc : s.Usable s.snap.src) (hlen : s.snap.srcLen.toNat ≤ lmax) :
    exec .hmacKey s = .next (State.complete { s with key := normKey s.srcBytes, kvalid := true } 0) := by
  obtain ⟨hwf, hmap, hadm⟩ := hsrc.checks
  simp [exec, execHmacKey, hwf, Nat.not_lt.mpr hlen, hmap, hadm, State.readRegion_src]

/-- Settles O42: the checks pass, and the source region's length chooses the case of NormKey. -/
theorem hmacKeyCompletes : Obligations.HmacKeyCompletes := by
  unfold Obligations.HmacKeyCompletes
  intro s hsrc hlen
  rw [exec_hmacKey hsrc hlen, normKey, State.srcBytes_length]
  rfl

/-- HMAC_MAC with a key on regions that pass its checks (43_hmac.md R181). -/
theorem exec_hmacMac {s : State} (hkey : s.kvalid = true) (hsrc : s.Usable s.snap.src) (hdst : s.Usable s.snap.dst32)
    (hover : s.snap.dst32.overlaps s.snap.src = false) (hlen : s.snap.srcLen.toNat ≤ lmax - 64) :
    exec .hmacMac s = .next (State.complete { s with mem := s.memWrite s.snap.dstAddr (hmacK s.key s.srcBytes) } 0) := by
  obtain ⟨hwf, hmap, hadm⟩ := hsrc.checks
  obtain ⟨hwf', hmap', hadm'⟩ := hdst.checks
  simp [exec, execHmacMac, hkey, hwf, hwf', hover, Nat.not_lt.mpr hlen, hmap, hmap', hadm, hadm', State.readRegion_src]

/-- Settles O43: the checks pass, and the MAC, its two pads written out, is stored. -/
theorem hmacMacCompletes : Obligations.HmacMacCompletes := by
  unfold Obligations.HmacMacCompletes
  intro s hkey hsrc hdst hover hlen hw
  exact ⟨_, exec_hmacMac hkey hsrc hdst hover hlen, hdst.stored_dst32 hw (hmacK_length _ _)⟩

end Sys2Proof.Machine
end

section
/-!
SUPPORT. The family of 44_kdf.md: a block's fold is the XOR of its U values (`kdfBlock_eq_kdfXor`), the blocks of a longer key
begin with those of a shorter one (`kdfBlocks_prefix`), the count is seen only through `iterations`, and KDF on operands that pass
its checks.
-/
namespace Sys2Proof.Machine

/-! ### Blocks -/

/-- A block's fold, begun after U number `k + 1`, takes in the `n` values that follow it (44_kdf.md R192). -/
theorem kdfFold_eq_foldl (p salt : List Byte) (i : Nat) : ∀ (n k : Nat) (t : List Byte),
    kdfFold (normKey p) n (kdfValue p salt i k) t =
      ((List.range n).map fun j => kdfValue p salt i (k + j + 1)).foldl xorBytes t
  | 0, _, _ => rfl
  | n + 1, k, t => by
    have hnext : hmacK (normKey p) (kdfValue p salt i k) = kdfValue p salt i (k + 1) := rfl
    have hshift (j : Nat) : k + (j + 1) + 1 = k + 1 + j + 1 := by omega
    rw [kdfFold, hnext, kdfFold_eq_foldl p salt i n (k + 1)]
    simp only [List.range_succ_eq_map, List.map_cons, List.map_map, List.foldl_cons, Function.comp_def, hshift, Nat.add_zero]

/-- A block of the machine is the XOR of its U values (44_kdf.md R192). -/
theorem kdfBlock_eq_kdfXor (p salt : List Byte) (it i : Nat) : kdfBlock (normKey p) salt it i = kdfXor p salt it i := by
  have hfirst : kdfFirst (normKey p) salt i = kdfValue p salt i 0 := rfl
  rw [kdfBlock, hfirst, kdfFold_eq_foldl, kdfXor]
  simp only [Nat.zero_add]

/-- The blocks stand in index order (44_kdf.md R193). -/
theorem kdfBlocks_eq_flatMap (k0 salt : List Byte) (it : Nat) :
    ∀ nb : Nat, kdfBlocks k0 salt it nb = (List.range nb).flatMap fun i => kdfBlock k0 salt it (i + 1)
  | 0 => rfl
  | nb + 1 => by
    rw [kdfBlocks, kdfBlocks_eq_flatMap k0 salt it nb, List.range_succ, List.flatMap_append, List.flatMap_singleton]

/-- Each U value has 32 bytes (44_kdf.md R191). -/
theorem kdfValue_length (p salt : List Byte) (i j : Nat) : (kdfValue p salt i j).length = 32 := by
  cases j with
  | zero => exact hmacK_length _ _
  | succ j => exact hmacK_length _ _

/-- Settles O33: block by block, the machine's fold is the XOR of the U values. -/
theorem kdfFoldsItsIterations : Obligations.KdfFoldsItsIterations := by
  unfold Obligations.KdfFoldsItsIterations
  intro p salt c n
  simp only [← kdfBlock_eq_kdfXor]
  refine ⟨?_, fun i j => ⟨kdfValue_length p salt i j, kdfBlock_length _ _ _ _⟩⟩
  rw [pbkdf, kdfBlocks_eq_flatMap]
  rfl

/-! ### Shorter and longer keys -/

/-- More blocks go on after fewer (44_kdf.md R199). -/
theorem kdfBlocks_prefix (k0 salt : List Byte) (it : Nat) {m n : Nat} (h : m ≤ n) :
    kdfBlocks k0 salt it m <+: kdfBlocks k0 salt it n := by
  induction n, h using Nat.le_induction with
  | base => exact List.prefix_rfl
  | succ n _ ih => exact ih.trans (List.prefix_append _ _)

/-- A longer output needs no fewer blocks (44_kdf.md R193). -/
theorem blockCount_mono {m n : Nat} (h : m ≤ n) : blockCount m ≤ blockCount n :=
  Nat.div_le_div_right (Nat.add_le_add_right h 31)

/-- Blocks that suffice for a derived key begin with it (44_kdf.md R193). -/
theorem pbkdf_prefix_kdfBlocks (p salt : List Byte) (c : Word) {n nb : Nat} (h : blockCount n ≤ nb) :
    pbkdf p salt c n <+: kdfBlocks (normKey p) salt (iterations c) nb :=
  (List.take_prefix _ _).trans (kdfBlocks_prefix _ _ _ h)

/-- Settles O35: the blocks that the longer key needs begin with both keys. -/
theorem kdfLengthAndPrefix : Obligations.KdfLengthAndPrefix := by
  unfold Obligations.KdfLengthAndPrefix
  intro p salt c n n' h
  have hprefix : pbkdf p salt c n <+: pbkdf p salt c n' :=
    List.prefix_of_prefix_length_le (pbkdf_prefix_kdfBlocks p salt c (blockCount_mono h))
      (pbkdf_prefix_kdfBlocks p salt c le_rfl) (by rwa [pbkdf_length, pbkdf_length])
  rw [List.prefix_iff_eq_take, pbkdf_length] at hprefix
  exact ⟨pbkdf_length p salt c n, hprefix⟩

/-! ### The iteration count -/

/-- The derived key depends on the count through the number of iterations alone (44_kdf.md R194). -/
theorem pbkdf_eq_of_iterations_eq {c c' : Word} (h : iterations c = iterations c') (p salt : List Byte) (n : Nat) :
    pbkdf p salt c n = pbkdf p salt c' n := by
  rw [pbkdf, pbkdf, h]

/-- A count of 0 is normalised to 1 (44_kdf.md R194). -/
theorem iterations_zero : iterations 0 = iterations 1 := rfl

/-- The state with another iteration count in its snapshot. -/
def State.withIter (s : State) (c : Word) : State := { s with snap := { s.snap with iter := c } }

/-- The count is no part of what the engine reads. -/
theorem State.readRegion_withIter (s : State) (c : Word) : (s.withIter c).readRegion = s.readRegion := by
  funext p r
  simp only [State.readRegion, State.memRead_eq]
  rfl

/-- KDF answers alike under two counts of equally many iterations: every check and the key are the same. -/
theorem execKdf_withIter {s : State} {c : Word} (hc : iterations s.snap.iter = iterations c) :
    Follows (fun t t' => t' = t.withIter c) (execKdf s) (execKdf (s.withIter c)) := by
  have check {q : Prop} {d d' : Decidable q} {e : ErrorCode} {o o' : StepOutcome}
      (h : Follows (fun t t' => t' = t.withIter c) o o') : Follows (fun t t' => t' = t.withIter c)
        (@ite _ q d (s.raise e) o) (@ite _ q d' ((s.withIter c).raise e) o') :=
    .ite (fun _ => .next rfl) fun _ => h
  unfold execKdf
  rw [s.readRegion_withIter, pbkdf_eq_of_iterations_eq hc]
  exact check <| check <| check <| check <| check <| check <| check <| .refuse <| .next rfl

/-- Settles O34: both counts are one iteration. -/
theorem zeroIterationsIsOne : Obligations.ZeroIterationsIsOne := by
  unfold Obligations.ZeroIterationsIsOne
  refine ⟨pbkdf_eq_of_iterations_eq iterations_zero, fun s t hiter ht => ?_⟩
  have hc : iterations s.snap.iter = iterations 1 := by rw [hiter, iterations_zero]
  obtain ⟨t', ht', rfl⟩ := execKdf_withIter hc t ht
  exact ht'

/-! ### KDF -/

/-- KDF on regions and lengths that pass its checks (44_kdf.md R195). -/
theorem exec_kdf {s : State} (hsrc : s.Usable s.snap.src) (haux : s.Usable s.snap.aux) (hdst : s.Usable s.snap.dstOut)
    (hover : s.snap.dstOut.overlaps s.snap.src = false) (hover' : s.snap.dstOut.overlaps s.snap.aux = false)
    (hout : s.snap.outLen.toNat ≤ outMax) (hlen : s.snap.srcLen.toNat ≤ lmax) (hlen' : s.snap.auxLen.toNat ≤ lmax - 68) :
    exec .kdf s = .next (State.complete { s with
      mem := s.memWrite s.snap.dstAddr (pbkdf s.srcBytes s.auxBytes s.snap.iter s.snap.outLen.toNat) } 0) := by
  obtain ⟨hwf, hmap, hadm⟩ := hsrc.checks
  obtain ⟨hwf', hmap', hadm'⟩ := haux.checks
  obtain ⟨hwf'', hmap'', hadm''⟩ := hdst.checks
  simp [exec, execKdf, hwf, hwf', hwf'', hover, hover', Nat.not_lt.mpr hout, Nat.not_lt.mpr hlen, Nat.not_lt.mpr hlen', hmap,
    hmap', hmap'', hadm, hadm', hadm'', State.readRegion_src, State.readRegion_aux]

/-- Settles O44: the checks pass, and the derived key, empty when OUT_LEN is 0, is stored. -/
theorem kdfCompletes : Obligations.KdfCompletes := by
  unfold Obligations.KdfCompletes
  intro s hsrc haux hdst hover hover' hout hlen hlen' hw
  refine ⟨_, exec_kdf hsrc haux hdst hover hover' hout hlen hlen', (State.memWrite_stored hw hdst.1 (pbkdf_length _ _ _ _)).2,
    fun hzero => ?_⟩
  have hempty : pbkdf s.srcBytes s.auxBytes s.snap.iter s.snap.outLen.toNat = [] :=
    List.eq_nil_of_length_eq_zero (by rw [pbkdf_length, hzero]; rfl)
  rw [hempty]
  rfl

end Sys2Proof.Machine
end

section
/-!
SUPPORT. The family of 60_exceptions.md: a command whose checks pass and whose regions name no device succeeds
(`Instr.exec_of_passes`), and the host operations that can deassert the interrupt output (`HostOp.Deasserts`).
-/
namespace Sys2Proof.Machine

/-! ### The checks of a command, passed -/

/-- A command whose checks pass and whose regions name no device succeeds (60_exceptions.md R213). -/
theorem Instr.exec_of_passes {i : Instr} {s : State} (h : Passes i s) (hdev : ¬ deviceNamed i s) :
    ∃ u, exec i s = State.succeed u := by
  obtain ⟨u, hu⟩ := exec_eq_checked i s
  exact ⟨u, by rw [hu, checked_of_passes h, if_neg hdev]⟩

/-- Settles O45: the legality of the word is the engine's own check, and every command makes the others in their order. -/
theorem checksInFixedOrder : Obligations.ChecksInFixedOrder := by
  unfold Obligations.ChecksInFixedOrder
  refine ⟨fun s e hb hd => State.engineMove_error hb hd, fun i s hdev => ⟨fun e h => Instr.exec_of_firstFailure h, fun h => ?_⟩⟩
  obtain ⟨u, hu⟩ := Instr.exec_of_passes h hdev
  exact ⟨u.complete 0, hu, rfl⟩

/-! ### The interrupt output -/

theorem State.irq_eq_true_iff (s : State) : s.irq = true ↔ s.done = true ∧ s.ie = true := by simp [State.irq]

/-- Completion leaves IRQ equal to IE, whatever the code (60_exceptions.md R220). -/
@[simp] theorem State.complete_irq (s : State) (code : BitVec 8) : (s.complete code).irq = s.ie := Bool.true_and _

/-- Acceptance deasserts IRQ (60_exceptions.md R220). -/
@[simp] theorem State.accept_irq (s : State) (w : Word) : (s.accept w).irq = false := rfl

/-- A write to STATUS reaches IRQ through DONE (10_state.md R27). -/
theorem State.writeStatus_irq (s : State) (v : Word) : (s.writeStatus v).irq = ((s.done && !v.getLsbD 1) && s.ie) := rfl

/-- A write to CTRL reaches IRQ through IE (10_state.md R28). -/
theorem State.writeCtrl_irq (s : State) (v : Word) : (s.writeCtrl v).irq = (s.done && v.getLsbD 0) := rfl

/-- A command that gives a next state leaves IRQ equal to IE (60_exceptions.md R220). -/
theorem exec_irq {i : Instr} {s t : State} (h : exec i s = .next t) : t.irq = s.ie := by
  obtain ⟨-, hdone⟩ := exec_idle_done h
  obtain ⟨-, hie⟩ := commandsKeepParameters i s t h
  rw [State.irq, hdone, hie, Bool.true_and]

/-- The host operations that can deassert IRQ, `busy` saying whether a command runs (60_exceptions.md R220,
70_reset_and_hazards.md R240). -/
inductive HostOp.Deasserts (busy : Bool) : HostOp → Prop
  | clearDone {v : Word} (hv : v.getLsbD 1 = true) : Deasserts busy (.wr 0x004 .word v)
  | start (hb : busy = false) (w : Word) : Deasserts busy (.wr 0x000 .word w)
  | clearIe {v : Word} (hv : v.getLsbD 0 = false) : Deasserts busy (.wr 0x008 .word v)
  | reset : Deasserts busy .assertReset

/-- A register write leaves IRQ asserted, but for the three operations of 60_exceptions.md R220. -/
theorem State.hostWrite_irq {s : State} (h : s.irq = true) (r : Reg) (v : Word) :
    (s.hostWrite r v).irq = true ∨ HostOp.Deasserts s.busy (.wr r.offset .word v) := by
  cases r with
  | cmd =>
    cases hb : s.busy with
    | false => exact .inr (.start rfl v)
    | true =>
      rw [State.hostWrite_dropped hb rfl]
      exact .inl h
  | status =>
    cases hv : v.getLsbD 1 with
    | true => exact .inr (.clearDone hv)
    | false =>
      rw [State.hostWrite_status, State.writeStatus_irq, hv, Bool.not_false, Bool.and_true]
      exact .inl h
  | ctrl =>
    cases hv : v.getLsbD 0 with
    | false => exact .inr (.clearIe hv)
    | true =>
      obtain ⟨hdone, -⟩ := s.irq_eq_true_iff.mp h
      rw [State.hostWrite_ctrl, State.writeCtrl_irq, hv, Bool.and_true]
      exact .inl hdone
  | _ =>
    rw [State.hostWrite]
    split <;> exact .inl h

/-- A host operation leaves IRQ asserted, but for those that can deassert it. -/
theorem State.hostOperation_irq {s t : State} {op : HostOp} (ht : s.hostOperation op = .next t) (h : s.irq = true) :
    t.irq = true ∨ HostOp.Deasserts s.busy op := by
  obtain ⟨off, v, rfl, -, rfl⟩ | ⟨off, -, -, rfl⟩ | ⟨-, l, rfl⟩ | ⟨-, l, rfl⟩ | ⟨a, b, -, hs⟩ | ⟨a, -, hl⟩ | ⟨rfl, -⟩ :=
    State.hostOperation_cases ht
  · by_cases hr : regAt off = .reserved
    · rw [hr, State.hostWrite_reserved]
      exact .inl h
    · have hw := State.hostWrite_irq h (regAt off) v
      rwa [offset_regAt hr] at hw
  · exact .inl h
  · exact .inl h
  · exact .inl h
  · obtain ⟨-, rfl⟩ | ⟨-, -, rfl⟩ | ⟨-, -, rfl⟩ := State.hostStore_cases hs <;> exact .inl h
  · obtain ⟨b, n, rfl⟩ := State.hostLoad_cases hl
    exact .inl h
  · exact .inr .reset

/-- A step leaves IRQ asserted, unless the host's operation in it can deassert it: the engine only completes. -/
theorem step_irq {s t : State} (hstep : step s = .next t) (h : s.irq = true) :
    t.irq = true ∨ s.HostMoves ∧ ∃ op, s.hostOps.head? = some op ∧ HostOp.Deasserts s.busy op := by
  obtain ⟨-, hie⟩ := s.irq_eq_true_iff.mp h
  obtain ⟨-, -, i, -, ht⟩ | ⟨-, -, -, rfl⟩ | ⟨hm, op, rest, ho, ht⟩ | rfl := step_cases hstep
  · exact .inl ((exec_irq ht).trans hie)
  · exact .inl ((State.complete_irq _ _).trans hie)
  · exact (State.hostOperation_irq (s := s.opTaken) ht h).imp_right fun hd => ⟨hm, op, by rw [ho, List.head?_cons], hd⟩
  · exact .inl h

/-- Settles O20: IRQ is read off DONE and IE, and over a step only the listed host operations lower it. -/
theorem interruptLevel : Obligations.InterruptLevel := by
  unfold Obligations.InterruptLevel
  refine ⟨State.irq_eq_true_iff, State.complete_irq, fun s v hv => ?_, fun s w hb => ?_, fun s v hv => ?_, fun s t h hstep => ?_⟩
  · rw [State.hostWrite_status, State.writeStatus_irq, hv, Bool.not_true, Bool.and_false, Bool.false_and]
  · rw [State.hostWrite_cmd hb, State.accept_irq]
  · rw [State.hostWrite_ctrl, State.writeCtrl_irq, hv, Bool.and_false]
  · refine (step_irq hstep h).imp_right ?_
    rintro ⟨hm, op, hop, hd⟩
    refine ⟨hm, ?_⟩
    cases hd with
    | clearDone hv => exact .inl ⟨_, hop, hv⟩
    | start hb w => exact .inr (.inl ⟨hb, w, hop⟩)
    | clearIe hv => exact .inr (.inr (.inl ⟨_, hop, hv⟩))
    | reset => exact .inr (.inr (.inr hop))

end Sys2Proof.Machine
end

section
/-!
SUPPORT. The family of 70_reset_and_hazards.md: the step that asserts reset (`step_assertReset`), and the memory it leaves
while idle (`State.memAfterReset_idle`); while a command runs that is `State.memAfterReset_spec`.
-/
namespace Sys2Proof.Machine

/-- No command runs, so reset abandons no output region (70_reset_and_hazards.md R240). -/
theorem State.memAfterReset_idle {s : State} (h : s.busy = false) : s.memAfterReset = s.mem := by
  simp [State.memAfterReset, State.runningOutput, h]

/-- The host asserts reset: turn and operation are taken first, and neither is a component of S. -/
theorem step_assertReset {s : State} {rest : List HostOp} (hm : s.HostMoves) (ho : s.hostOps = .assertReset :: rest) :
    step s = .next s.opTaken.assertReset := by
  rw [step_host hm, State.hostMove_cons ho, State.hostOperation]

/-- Settles O9: the step gives the reset state with the memory of `State.memAfterReset`, which is described byte by byte. -/
theorem resetInput : Obligations.ResetInput := by
  unfold Obligations.ResetInput
  intro s rest hm ho
  refine ⟨s.memAfterReset, ?_, State.memAfterReset_idle, fun hw a => ?_⟩
  · have hops : s.opTaken.hostOps = rest := by rw [State.opTaken_hostOps, ho, List.tail_cons]
    rw [step_assertReset hm ho, State.assertReset, hops]
    rfl
  · obtain ⟨-, hread⟩ := State.memAfterReset_spec hw a
    exact hread

end Sys2Proof.Machine
end
